-- ==== Sys2Proof/Word.lean ====
section
/-! DEFINITION. The 32-bit word, the register index, and the two readings of a word. -/

namespace Sys2Proof

/-- A 32-bit value: "a vector of 32 bits" (spec/00_scope.md R5). `BitVec.toInt` is the spec's
`signed(v)` and `BitVec.toNat` its `unsigned(v)`; `+` and `-` are modulo 2^32 (R86). -/
abbrev Word := BitVec 32

/-- The index of a general register, 0 to 31 (spec/10_state.md R10, R14). -/
abbrev RegIdx := Fin 32

end Sys2Proof
end

