-- ==== Sys2Proof/Config.lean ====
section
/-! DEFINITION. The implementation parameters of spec/00_scope.md R3, each a named constant.
No parameter of this hardware is left open by the rules of the spec, so Config holds no free value;
the parameters the spec itself decided (its D<n>) are marked here and in notes/assumptions. -/

namespace Sys2Proof

/-- The orders the bytes of a word could have in memory. -/
inductive ByteOrder
  | little
  | big
  deriving DecidableEq, Repr

end Sys2Proof

namespace Sys2Proof.Config

/-- XLEN: the width of a register and of a word, in bits (R3, R5, R10). It is the width of the type
Word, which stands as a literal there so that the laws of BitVec apply to it as they are
(word_width of Laws/Config.lean). -/
abbrev xlen : Nat := 32

/-- ILEN: the width of an instruction, "one length only" (R3, R53): one word of the Instruction
Store. -/
abbrev ilen : Nat := 32

/-- PC_WIDTH: the width of the pc (R3, R15). DESIGN CHOICE of the spec (D3):
notes/assumptions/3.md. -/
abbrev pcWidth : Nat := 32

/-- PC_UNIT: what one unit of the pc addresses, in Instruction Store words: "index, not byte
address" (R3, R15). -/
abbrev pcUnit : Nat := 1

/-- IMM_SCALE: what a branch, jump, load or store offset is multiplied by: it is added unscaled,
"applied directly, not x4" (R3, R84). -/
abbrev immScale : Word := 1

/-- ENDIANNESS: the order of a word's bytes in memory: "none observable" (R3, R38), so no operation
has one to follow. -/
abbrev endianness : Option ByteOrder := none

/-- NREGS: the number of general registers (R3, R10). -/
abbrev nregs : Nat := 32

/-- X0_HARDWIRED: does register 0 read as zero and ignore writes? No (R3, R13).
DESIGN CHOICE of the spec (D1): notes/assumptions/1.md. -/
abbrev x0Hardwired : Bool := false

/-- IMEM_WORDS: words of the Instruction Store (R3, R21). -/
abbrev imemWords : Nat := 1024

/-- DMEM_WORDS: slots of the Data Memory (R3, R22). -/
abbrev dmemWords : Nat := 1024

/-- PC_STEP: the sequential advance of the pc, in Instruction Store words (R3, R16). -/
abbrev pcStep : Word := 1

/-- TRANSFER_POST_INCREMENT: what is added after a JAL or a taken branch has set the pc. Nothing
(R3, R84). DESIGN CHOICE of the spec between two readings of its source (C1, D2):
notes/assumptions/2.md. -/
abbrev transferPostIncrement : Word := 0

/-- PC_RESET: "It starts at 0" (R3, R26). -/
abbrev pcReset : Word := 0

/-- REG_RESET: what every general register holds at reset (R3, R26).
DESIGN CHOICE of the spec for x1 to x31 (D4): notes/assumptions/4.md. -/
abbrev regReset : Word := 0

/-- DMEM_RESET: what every slot of the Data Memory holds at reset, and so what a slot that the
memory does not list reads as (R3, R26).
DESIGN CHOICE of the spec (D5): notes/assumptions/5.md. -/
abbrev dmemReset : Word := 0

/-- IMEM_FILL: what every word of the Instruction Store that the load does not populate holds, and
so what a word that the memory does not list reads as (R3, R203).
DESIGN CHOICE of the spec (D6): notes/assumptions/6.md. -/
abbrev imemFill : Word := 0

/-- SHAMT_MASK: the mask of a register shift amount (R3, R88). -/
abbrev shamtMask : Word := 0x1F

/-- MAX_BREAKPOINTS: the capacity of the Breakpoint Set (R3, R23). -/
abbrev maxBreakpoints : Nat := 5

end Sys2Proof.Config

namespace Sys2Proof

/-- The values the parameter NARROW_WRITE may take (spec/92_eei_decisions.md D8): what a byte or
half-word write does to the bits of the slot above its width. -/
inductive NarrowWrite
  | merge   -- they keep their old value
  | zero    -- they become 0
  | sign    -- they become copies of the top bit written
  deriving DecidableEq, Repr

/-- NARROW_WRITE = merge (R3, R35, R36).
DESIGN CHOICE of the spec (D8): notes/assumptions/8.md. -/
abbrev Config.narrowWrite : NarrowWrite := .merge

end Sys2Proof
end

