-- ==== Sys2Proof/Syntax.lean ====
section
/-! DEFINITION. The 34 instructions (spec/00_scope.md R2), one constructor per row of
spec/opcode_table.json, in the table's order. An operand is what the Decoder delivers
(spec/30_encoding.md R51, R57 to R61): a register index, or an immediate already sign-extended to
32 bits. Which immediates an encoding can hold is the check of WellFormed.lean. -/

namespace Sys2Proof

inductive Instr
  -- upper immediate (spec/41_upper_immediate.md)
  | lui (rd : RegIdx) (immU : Word)
  | auipc (rd : RegIdx) (immU : Word)
  -- jumps (spec/42_jumps.md)
  | jal (rd : RegIdx) (immJ : Word)
  | jalr (rd rs1 : RegIdx) (immI : Word)
  -- branches (spec/43_branches.md)
  | beq (rs1 rs2 : RegIdx) (immB : Word)
  | bne (rs1 rs2 : RegIdx) (immB : Word)
  | blt (rs1 rs2 : RegIdx) (immB : Word)
  | bge (rs1 rs2 : RegIdx) (immB : Word)
  | bltu (rs1 rs2 : RegIdx) (immB : Word)
  | bgeu (rs1 rs2 : RegIdx) (immB : Word)
  -- loads (spec/44_loads.md)
  | lb (rd rs1 : RegIdx) (immI : Word)
  | lh (rd rs1 : RegIdx) (immI : Word)
  | lw (rd rs1 : RegIdx) (immI : Word)
  | lbu (rd rs1 : RegIdx) (immI : Word)
  | lhu (rd rs1 : RegIdx) (immI : Word)
  -- stores (spec/45_stores.md); rs2 is the data register
  | sb (rs1 rs2 : RegIdx) (immS : Word)
  | sh (rs1 rs2 : RegIdx) (immS : Word)
  | sw (rs1 rs2 : RegIdx) (immS : Word)
  -- register-immediate ALU (spec/46_alu_immediate.md)
  | addi (rd rs1 : RegIdx) (immI : Word)
  | slti (rd rs1 : RegIdx) (immI : Word)
  | sltiu (rd rs1 : RegIdx) (immI : Word)
  | xori (rd rs1 : RegIdx) (immI : Word)
  | ori (rd rs1 : RegIdx) (immI : Word)
  | andi (rd rs1 : RegIdx) (immI : Word)
  -- register-register ALU (spec/47_alu_register.md)
  | add (rd rs1 rs2 : RegIdx)
  | sub (rd rs1 rs2 : RegIdx)
  | sll (rd rs1 rs2 : RegIdx)
  | slt (rd rs1 rs2 : RegIdx)
  | sltu (rd rs1 rs2 : RegIdx)
  | xor (rd rs1 rs2 : RegIdx)
  | srl (rd rs1 rs2 : RegIdx)
  | sra (rd rs1 rs2 : RegIdx)
  | or (rd rs1 rs2 : RegIdx)
  | and (rd rs1 rs2 : RegIdx)
  deriving DecidableEq, Repr

end Sys2Proof
end

