-- ==== Sys2Proof/WellFormed.lean ====
section
/-! DEFINITION. Which instruction terms an encoding exists for: the immediate lies in the range its
format can hold (spec/30_encoding.md R57 to R61). Register indices are in range by their type. -/

namespace Sys2Proof

/-- "Signed range -2048 .. 2047": immI and immS (R57, R58). -/
def fitsImm12 (imm : Word) : Bool :=
  decide (-2048 ≤ imm.toInt) && decide (imm.toInt ≤ 2047)

/-- "Signed range -4096 .. 4094, always even": immB (R59). -/
def fitsImmB (imm : Word) : Bool :=
  decide (-4096 ≤ imm.toInt) && decide (imm.toInt ≤ 4094) && !imm.getLsbD 0

/-- "Bits 11..0 are 0": immU, a multiple of 4096 (R60). -/
def fitsImmU (imm : Word) : Bool :=
  imm &&& 0x00000FFF == 0

/-- "Signed range -1048576 .. 1048574, always even": immJ (R61). -/
def fitsImmJ (imm : Word) : Bool :=
  decide (-1048576 ≤ imm.toInt) && decide (imm.toInt ≤ 1048574) && !imm.getLsbD 0

/-- The instruction has an encoding: its immediate fits its format (R53). -/
def Instr.wellFormed : Instr → Bool
  | .lui _ imm | .auipc _ imm => fitsImmU imm
  | .jal _ imm => fitsImmJ imm
  | .jalr _ _ imm => fitsImm12 imm
  | .beq _ _ imm | .bne _ _ imm | .blt _ _ imm | .bge _ _ imm | .bltu _ _ imm | .bgeu _ _ imm =>
    fitsImmB imm
  | .lb _ _ imm | .lh _ _ imm | .lw _ _ imm | .lbu _ _ imm | .lhu _ _ imm => fitsImm12 imm
  | .sb _ _ imm | .sh _ _ imm | .sw _ _ imm => fitsImm12 imm
  | .addi _ _ imm | .slti _ _ imm | .sltiu _ _ imm | .xori _ _ imm | .ori _ _ imm | .andi _ _ imm =>
    fitsImm12 imm
  | .add _ _ _ | .sub _ _ _ | .sll _ _ _ | .slt _ _ _ | .sltu _ _ _ | .xor _ _ _ | .srl _ _ _
  | .sra _ _ _ | .or _ _ _ | .and _ _ _ => true

end Sys2Proof
end

