-- ==== Sys2Proof/Decode.lean ====
section
/-! DEFINITION. The Decoder (spec/30_encoding.md): field extraction, sign extension, the five
immediates, instruction selection, the encoder, and the opcode table as rows of mask and match.
The opcode and funct3 numerals are the RV32I family's, which the spec imports from general
knowledge (PRESUMED: notes/assumptions/21.md). -/

namespace Sys2Proof

/-! ## Sign extension (R56) -/

/-- `sext_N(v)` of an N-bit value: bits N-1..0 are v, every higher bit is bit N-1 of v (R5, R56). -/
def sext {n : Nat} (v : BitVec n) : Word := v.signExtend 32

/-- `signExtend(v, N)` of an integer: mask to N bits, then sign-extend from bit N-1 (R56). -/
def signExtendInt (v : Int) (n : Nat) : Word := sext (BitVec.ofInt n v)

/-! ## The fields and immediates of a word (R50, R51, R57 to R62) -/

/-- The eleven outputs of the Decoder (R50), each produced for every word (R62). -/
structure Fields where
  opcode : BitVec 7
  rd     : RegIdx
  funct3 : BitVec 3
  rs1    : RegIdx
  rs2    : RegIdx
  funct7 : BitVec 7
  immI   : Word
  immS   : Word
  immB   : Word
  immU   : Word
  immJ   : Word
  deriving DecidableEq, Repr

/-- A 5-bit register field as a register index. -/
def regField (b : BitVec 5) : RegIdx := b.toFin

/-- immI = sext_12(bits[31:20]) (R57). -/
def immIOf (w : Word) : Word := sext (w.extractLsb' 20 12)

/-- immS = sext_12 of bits[31:25], bits[11:7] (R58). -/
def immSOf (w : Word) : Word := sext (w.extractLsb' 25 7 ++ w.extractLsb' 7 5)

/-- immB = sext_13 of bit 31, bit 7, bits[30:25], bits[11:8], 0 (R59). -/
def immBOf (w : Word) : Word :=
  sext (w.extractLsb' 31 1 ++ w.extractLsb' 7 1 ++ w.extractLsb' 25 6 ++ w.extractLsb' 8 4 ++ 0#1)

/-- immU = insn & 0xFFFFF000: the bits stay in place and are not shifted (R60). -/
def immUOf (w : Word) : Word := w &&& 0xFFFFF000

/-- immJ = sext_21 of bit 31, bits[19:12], bit 20, bits[30:21], 0 (R61). -/
def immJOf (w : Word) : Word :=
  sext (w.extractLsb' 31 1 ++ w.extractLsb' 12 8 ++ w.extractLsb' 20 1 ++ w.extractLsb' 21 10 ++ 0#1)

/-- `Decode(insn)` (R50): pure, total, no failure mode. The opcode is the plain bits[6:0]; the
"sign-extension" artefact of R52 is not modelled (notes/assumptions/9.md). -/
def decodeFields (w : Word) : Fields where
  opcode := w.extractLsb' 0 7
  rd     := regField (w.extractLsb' 7 5)
  funct3 := w.extractLsb' 12 3
  rs1    := regField (w.extractLsb' 15 5)
  rs2    := regField (w.extractLsb' 20 5)
  funct7 := w.extractLsb' 25 7
  immI   := immIOf w
  immS   := immSOf w
  immB   := immBOf w
  immU   := immUOf w
  immJ   := immJOf w

/-! ## Instruction selection (R64 to R70) -/

/-- Why a word is no instruction: which key of the decision tree selected nothing. The spec has one
class of unsupported words (R70); the name says which of its members the word is. -/
inductive DecodeError
  /-- The opcode is none of the nine of R64. -/
  | unsupportedOpcode (opcode : BitVec 7)
  /-- The opcode is one of the nine and its funct3 selects nothing (the holes of R65; R68). -/
  | unsupportedFunct3 (opcode : BitVec 7) (funct3 : BitVec 3)
  /-- Opcode 0x33, and the funct7 is not the one its funct3 needs (the holes of R66; R67). -/
  | unsupportedFunct7 (funct3 : BitVec 3) (funct7 : BitVec 7)
  deriving DecidableEq, Repr

/-- The branches, by funct3 (R65). -/
def selectBranch (f : Fields) : Except DecodeError Instr :=
  match f.funct3 with
  | 0#3 => .ok (.beq f.rs1 f.rs2 f.immB)
  | 1#3 => .ok (.bne f.rs1 f.rs2 f.immB)
  | 4#3 => .ok (.blt f.rs1 f.rs2 f.immB)
  | 5#3 => .ok (.bge f.rs1 f.rs2 f.immB)
  | 6#3 => .ok (.bltu f.rs1 f.rs2 f.immB)
  | 7#3 => .ok (.bgeu f.rs1 f.rs2 f.immB)
  | f3 => .error (.unsupportedFunct3 f.opcode f3)

/-- The loads, by funct3 (R65). -/
def selectLoad (f : Fields) : Except DecodeError Instr :=
  match f.funct3 with
  | 0#3 => .ok (.lb f.rd f.rs1 f.immI)
  | 1#3 => .ok (.lh f.rd f.rs1 f.immI)
  | 2#3 => .ok (.lw f.rd f.rs1 f.immI)
  | 4#3 => .ok (.lbu f.rd f.rs1 f.immI)
  | 5#3 => .ok (.lhu f.rd f.rs1 f.immI)
  | f3 => .error (.unsupportedFunct3 f.opcode f3)

/-- The stores, by funct3 (R65). -/
def selectStore (f : Fields) : Except DecodeError Instr :=
  match f.funct3 with
  | 0#3 => .ok (.sb f.rs1 f.rs2 f.immS)
  | 1#3 => .ok (.sh f.rs1 f.rs2 f.immS)
  | 2#3 => .ok (.sw f.rs1 f.rs2 f.immS)
  | f3 => .error (.unsupportedFunct3 f.opcode f3)

/-- The register-immediate instructions, by funct3 (R65): there are no shift-immediates
(notes/assumptions/22.md). -/
def selectAluImm (f : Fields) : Except DecodeError Instr :=
  match f.funct3 with
  | 0#3 => .ok (.addi f.rd f.rs1 f.immI)
  | 2#3 => .ok (.slti f.rd f.rs1 f.immI)
  | 3#3 => .ok (.sltiu f.rd f.rs1 f.immI)
  | 4#3 => .ok (.xori f.rd f.rs1 f.immI)
  | 6#3 => .ok (.ori f.rd f.rs1 f.immI)
  | 7#3 => .ok (.andi f.rd f.rs1 f.immI)
  | f3 => .error (.unsupportedFunct3 f.opcode f3)

/-- The register-register instructions whose funct7 is 0x00, by funct3 (R66). -/
def selectAluReg00 (f : Fields) : Instr :=
  match f.funct3 with
  | 0#3 => .add f.rd f.rs1 f.rs2
  | 1#3 => .sll f.rd f.rs1 f.rs2
  | 2#3 => .slt f.rd f.rs1 f.rs2
  | 3#3 => .sltu f.rd f.rs1 f.rs2
  | 4#3 => .xor f.rd f.rs1 f.rs2
  | 5#3 => .srl f.rd f.rs1 f.rs2
  | 6#3 => .or f.rd f.rs1 f.rs2
  | _ => .and f.rd f.rs1 f.rs2

/-- The register-register instructions, by funct3 and funct7 (R66); every other funct7 is
unsupported (R67; the spec's decision D10: notes/assumptions/10.md). -/
def selectAluReg (f : Fields) : Except DecodeError Instr :=
  match f.funct7 with
  | 0x00#7 => .ok (selectAluReg00 f)
  | 0x20#7 =>
    match f.funct3 with
    | 0#3 => .ok (.sub f.rd f.rs1 f.rs2)
    | 5#3 => .ok (.sra f.rd f.rs1 f.rs2)
    | f3 => .error (.unsupportedFunct7 f3 0x20)
  | f7 => .error (.unsupportedFunct7 f.funct3 f7)

/-- JALR needs funct3 = 0 (R68; the spec's decision D11: notes/assumptions/11.md). -/
def selectJalr (f : Fields) : Except DecodeError Instr :=
  match f.funct3 with
  | 0#3 => .ok (.jalr f.rd f.rs1 f.immI)
  | f3 => .error (.unsupportedFunct3 f.opcode f3)

/-- The decoding procedure (R69): the flat decision tree keyed on opcode, funct3 and funct7. -/
def select (f : Fields) : Except DecodeError Instr :=
  match f.opcode with
  | 0x37#7 => .ok (.lui f.rd f.immU)
  | 0x17#7 => .ok (.auipc f.rd f.immU)
  | 0x6F#7 => .ok (.jal f.rd f.immJ)
  | 0x67#7 => selectJalr f
  | 0x63#7 => selectBranch f
  | 0x03#7 => selectLoad f
  | 0x23#7 => selectStore f
  | 0x13#7 => selectAluImm f
  | 0x33#7 => selectAluReg f
  | op => .error (.unsupportedOpcode op)

/-- The instruction a word is, or why it is none: total on all 2^32 words (R69, R70). -/
def decode (w : Word) : Except DecodeError Instr := select (decodeFields w)

/-! ## The host's words -/

/-- The first `nbits` bits of `w` as an instruction word, the bits above them 0. Every instruction
is one 32-bit word (R53), read whole, so no byte order applies (R38, R42). -/
def tableWord (nbits w : Nat) : Word := BitVec.ofNat 32 (w % 2 ^ nbits)

/-- What the decoder reads from an instruction whose bits are `w`, bit 0 the least significant. -/
def decodeTableWord (nbits w : Nat) : Option Instr :=
  if nbits ≤ Config.ilen then (decode (tableWord nbits w)).toOption else none

/-! ## The encoder (R53, R57 to R61, R64 to R66) -/

/-- R format. -/
def encodeR (funct7 : BitVec 7) (funct3 : BitVec 3) (opcode : BitVec 7) (rd rs1 rs2 : RegIdx) : Word :=
  funct7 ++ BitVec.ofFin (w := 5) rs2 ++ BitVec.ofFin (w := 5) rs1 ++ funct3 ++ BitVec.ofFin (w := 5) rd ++ opcode

/-- I format. -/
def encodeI (funct3 : BitVec 3) (opcode : BitVec 7) (rd rs1 : RegIdx) (imm : Word) : Word :=
  imm.extractLsb' 0 12 ++ BitVec.ofFin (w := 5) rs1 ++ funct3 ++ BitVec.ofFin (w := 5) rd ++ opcode

/-- S format. -/
def encodeS (funct3 : BitVec 3) (opcode : BitVec 7) (rs1 rs2 : RegIdx) (imm : Word) : Word :=
  imm.extractLsb' 5 7 ++ BitVec.ofFin (w := 5) rs2 ++ BitVec.ofFin (w := 5) rs1 ++ funct3 ++
    imm.extractLsb' 0 5 ++ opcode

/-- B format: bit 31 is imm[12], bits 30..25 imm[10:5], bits 11..8 imm[4:1], bit 7 imm[11]. -/
def encodeB (funct3 : BitVec 3) (opcode : BitVec 7) (rs1 rs2 : RegIdx) (imm : Word) : Word :=
  imm.extractLsb' 12 1 ++ imm.extractLsb' 5 6 ++ BitVec.ofFin (w := 5) rs2 ++ BitVec.ofFin (w := 5) rs1 ++ funct3 ++
    imm.extractLsb' 1 4 ++ imm.extractLsb' 11 1 ++ opcode

/-- U format: bits 31..12 are imm[31:12]. -/
def encodeU (opcode : BitVec 7) (rd : RegIdx) (imm : Word) : Word :=
  imm.extractLsb' 12 20 ++ BitVec.ofFin (w := 5) rd ++ opcode

/-- J format: bit 31 is imm[20], bits 30..21 imm[10:1], bit 20 imm[11], bits 19..12 imm[19:12]. -/
def encodeJ (opcode : BitVec 7) (rd : RegIdx) (imm : Word) : Word :=
  imm.extractLsb' 20 1 ++ imm.extractLsb' 1 10 ++ imm.extractLsb' 11 1 ++ imm.extractLsb' 12 8 ++
    BitVec.ofFin (w := 5) rd ++ opcode

/-- The word of an instruction. -/
def encode : Instr → Word
  | .lui rd imm => encodeU 0x37 rd imm
  | .auipc rd imm => encodeU 0x17 rd imm
  | .jal rd imm => encodeJ 0x6F rd imm
  | .jalr rd rs1 imm => encodeI 0 0x67 rd rs1 imm
  | .beq rs1 rs2 imm => encodeB 0 0x63 rs1 rs2 imm
  | .bne rs1 rs2 imm => encodeB 1 0x63 rs1 rs2 imm
  | .blt rs1 rs2 imm => encodeB 4 0x63 rs1 rs2 imm
  | .bge rs1 rs2 imm => encodeB 5 0x63 rs1 rs2 imm
  | .bltu rs1 rs2 imm => encodeB 6 0x63 rs1 rs2 imm
  | .bgeu rs1 rs2 imm => encodeB 7 0x63 rs1 rs2 imm
  | .lb rd rs1 imm => encodeI 0 0x03 rd rs1 imm
  | .lh rd rs1 imm => encodeI 1 0x03 rd rs1 imm
  | .lw rd rs1 imm => encodeI 2 0x03 rd rs1 imm
  | .lbu rd rs1 imm => encodeI 4 0x03 rd rs1 imm
  | .lhu rd rs1 imm => encodeI 5 0x03 rd rs1 imm
  | .sb rs1 rs2 imm => encodeS 0 0x23 rs1 rs2 imm
  | .sh rs1 rs2 imm => encodeS 1 0x23 rs1 rs2 imm
  | .sw rs1 rs2 imm => encodeS 2 0x23 rs1 rs2 imm
  | .addi rd rs1 imm => encodeI 0 0x13 rd rs1 imm
  | .slti rd rs1 imm => encodeI 2 0x13 rd rs1 imm
  | .sltiu rd rs1 imm => encodeI 3 0x13 rd rs1 imm
  | .xori rd rs1 imm => encodeI 4 0x13 rd rs1 imm
  | .ori rd rs1 imm => encodeI 6 0x13 rd rs1 imm
  | .andi rd rs1 imm => encodeI 7 0x13 rd rs1 imm
  | .add rd rs1 rs2 => encodeR 0x00 0 0x33 rd rs1 rs2
  | .sub rd rs1 rs2 => encodeR 0x20 0 0x33 rd rs1 rs2
  | .sll rd rs1 rs2 => encodeR 0x00 1 0x33 rd rs1 rs2
  | .slt rd rs1 rs2 => encodeR 0x00 2 0x33 rd rs1 rs2
  | .sltu rd rs1 rs2 => encodeR 0x00 3 0x33 rd rs1 rs2
  | .xor rd rs1 rs2 => encodeR 0x00 4 0x33 rd rs1 rs2
  | .srl rd rs1 rs2 => encodeR 0x00 5 0x33 rd rs1 rs2
  | .sra rd rs1 rs2 => encodeR 0x20 5 0x33 rd rs1 rs2
  | .or rd rs1 rs2 => encodeR 0x00 6 0x33 rd rs1 rs2
  | .and rd rs1 rs2 => encodeR 0x00 7 0x33 rd rs1 rs2

/-! ## The opcode table (spec/opcode_table.json, R69) -/

/-- The mnemonic of an instruction, one of the 34 names of R2. -/
def mnemonicOf : Instr → String
  | .lui _ _ => "LUI"
  | .auipc _ _ => "AUIPC"
  | .jal _ _ => "JAL"
  | .jalr _ _ _ => "JALR"
  | .beq _ _ _ => "BEQ"
  | .bne _ _ _ => "BNE"
  | .blt _ _ _ => "BLT"
  | .bge _ _ _ => "BGE"
  | .bltu _ _ _ => "BLTU"
  | .bgeu _ _ _ => "BGEU"
  | .lb _ _ _ => "LB"
  | .lh _ _ _ => "LH"
  | .lw _ _ _ => "LW"
  | .lbu _ _ _ => "LBU"
  | .lhu _ _ _ => "LHU"
  | .sb _ _ _ => "SB"
  | .sh _ _ _ => "SH"
  | .sw _ _ _ => "SW"
  | .addi _ _ _ => "ADDI"
  | .slti _ _ _ => "SLTI"
  | .sltiu _ _ _ => "SLTIU"
  | .xori _ _ _ => "XORI"
  | .ori _ _ _ => "ORI"
  | .andi _ _ _ => "ANDI"
  | .add _ _ _ => "ADD"
  | .sub _ _ _ => "SUB"
  | .sll _ _ _ => "SLL"
  | .slt _ _ _ => "SLT"
  | .sltu _ _ _ => "SLTU"
  | .xor _ _ _ => "XOR"
  | .srl _ _ _ => "SRL"
  | .sra _ _ _ => "SRA"
  | .or _ _ _ => "OR"
  | .and _ _ _ => "AND"

/-- A row of the table: "a word w is instruction M when w & mask(M) = match(M)" (R69). -/
structure TableRow where
  mnemonic : String
  mask     : Word
  pattern  : Word
  deriving DecidableEq, Repr

/-- The word has the row's pattern under the row's mask. -/
def matchesRow (w : Word) (r : TableRow) : Bool := w &&& r.mask == r.pattern

/-- Rows of LUI, AUIPC (R90, R91). -/
def upperRows : List TableRow :=
  [ ⟨"LUI", 0x0000007F, 0x00000037⟩
  , ⟨"AUIPC", 0x0000007F, 0x00000017⟩ ]

/-- Rows of JAL, JALR (R95, R96). -/
def jumpRows : List TableRow :=
  [ ⟨"JAL", 0x0000007F, 0x0000006F⟩
  , ⟨"JALR", 0x0000707F, 0x00000067⟩ ]

/-- Rows of the six branches (R101 to R106). -/
def branchRows : List TableRow :=
  [ ⟨"BEQ", 0x0000707F, 0x00000063⟩
  , ⟨"BNE", 0x0000707F, 0x00001063⟩
  , ⟨"BLT", 0x0000707F, 0x00004063⟩
  , ⟨"BGE", 0x0000707F, 0x00005063⟩
  , ⟨"BLTU", 0x0000707F, 0x00006063⟩
  , ⟨"BGEU", 0x0000707F, 0x00007063⟩ ]

/-- Rows of the five loads (R111 to R115). -/
def loadRows : List TableRow :=
  [ ⟨"LB", 0x0000707F, 0x00000003⟩
  , ⟨"LH", 0x0000707F, 0x00001003⟩
  , ⟨"LW", 0x0000707F, 0x00002003⟩
  , ⟨"LBU", 0x0000707F, 0x00004003⟩
  , ⟨"LHU", 0x0000707F, 0x00005003⟩ ]

/-- Rows of the three stores (R121 to R123). -/
def storeRows : List TableRow :=
  [ ⟨"SB", 0x0000707F, 0x00000023⟩
  , ⟨"SH", 0x0000707F, 0x00001023⟩
  , ⟨"SW", 0x0000707F, 0x00002023⟩ ]

/-- Rows of the six register-immediate instructions (R126 to R131). -/
def aluImmRows : List TableRow :=
  [ ⟨"ADDI", 0x0000707F, 0x00000013⟩
  , ⟨"SLTI", 0x0000707F, 0x00002013⟩
  , ⟨"SLTIU", 0x0000707F, 0x00003013⟩
  , ⟨"XORI", 0x0000707F, 0x00004013⟩
  , ⟨"ORI", 0x0000707F, 0x00006013⟩
  , ⟨"ANDI", 0x0000707F, 0x00007013⟩ ]

/-- Rows of the ten register-register instructions (R136 to R145). -/
def aluRegRows : List TableRow :=
  [ ⟨"ADD", 0xFE00707F, 0x00000033⟩
  , ⟨"SUB", 0xFE00707F, 0x40000033⟩
  , ⟨"SLL", 0xFE00707F, 0x00001033⟩
  , ⟨"SLT", 0xFE00707F, 0x00002033⟩
  , ⟨"SLTU", 0xFE00707F, 0x00003033⟩
  , ⟨"XOR", 0xFE00707F, 0x00004033⟩
  , ⟨"SRL", 0xFE00707F, 0x00005033⟩
  , ⟨"SRA", 0xFE00707F, 0x40005033⟩
  , ⟨"OR", 0xFE00707F, 0x00006033⟩
  , ⟨"AND", 0xFE00707F, 0x00007033⟩ ]

/-- The 34 rows of spec/opcode_table.json, in its order. -/
def opcodeTable : List TableRow :=
  upperRows ++ jumpRows ++ branchRows ++ loadRows ++ storeRows ++ aluImmRows ++ aluRegRows

end Sys2Proof
end

