-- ==== Sys2Proof/Machine/State.lean ====
section
/-! DEFINITION. The whole state of the machine (spec/10_state.md), as plain data, its value at
reset (R26), and the reasons a step can stop. -/

namespace Sys2Proof.Machine

/-- A memory of 32-bit words addressed by a word index: both the Instruction Store (R21) and the
Data Memory (R22). The smallest thing an index names is one 32-bit slot; "bytes inside a slot have
no addresses" (R38), so a cell is an index and a word (notes/assumptions/23.md). Only the indices
whose word differs from what an unlisted index reads as (Config.dmemReset in the Data Memory,
Config.imemFill in the Instruction Store) are listed, in strictly rising order: Memory.wf of Machine/Ops.lean. -/
abbrev Memory := List (Nat × Word)

/-- The Run State of the Session Controller (R24). -/
inductive RunState
  | idle
  | running
  | stoppedAtBreakpoint
  | halted
  deriving DecidableEq, Repr

/-- One Unsupported-Instruction report (R172): the pc of the word and the word. -/
structure Report where
  pc   : Word
  insn : Word
  deriving DecidableEq, Repr

/-- The state. The first six fields are the six items of R25 ("the six items of this file are the
whole state"). The last is the MODEL's own: the output stream of Unsupported-Instruction reports,
which the spec says is "an output event ..., not state", and asks a model to keep observable (R172,
D21). No operation of the machine reads it (notes/assumptions/17.md). -/
structure State where
  /-- The Register File, x0 to x31 (R10). -/
  regs        : Vector Word 32
  /-- The Program Counter, a signed word index into the Instruction Store (R15). -/
  pc          : Word
  /-- The Data Memory (R22). -/
  dmem        : Memory
  /-- The Instruction Store, constant after load (R21). -/
  imem        : Memory
  /-- The Breakpoint Set, up to five distinct pc values (R23). -/
  breakpoints : List Word
  /-- The Run State (R24). -/
  runState    : RunState
  /-- Output: the Unsupported-Instruction reports made so far, the newest first (R172). -/
  reports     : List Report
  deriving DecidableEq, Repr

/-- Why a step stops with a fault. -/
inductive Fault
  /-- Invalid-Index (R171): a Register File or Data Memory accessor was given an index outside its
  bounds. In a step only a load or a store raises it. SAFE: nothing is written and the pc stays, so
  the state after the fault is the state before the step (R81), and the spec itself makes it "a
  fault state, never a final state". -/
  | invalidIndex (index : Int)
  deriving DecidableEq, Repr

/-- Why an instruction has no meaning in the model. -/
inductive Refusal
  /-- The instruction is not modelled, named by its mnemonic. SAFE. No arm of exec raises it. -/
  | notModelled (mnemonic : String)
  deriving DecidableEq, Repr

/-- The state at session start, the only reset (R26, R200, R201), before the loader has placed a
program (notes/assumptions/6.md). The zeros of x1 to x31 and of both memories and the empty
Breakpoint Set are the spec's own decisions (notes/assumptions/4.md to 7.md). -/
def State.reset : State where
  regs        := Vector.replicate 32 Config.regReset
  pc          := Config.pcReset
  dmem        := []
  imem        := []
  breakpoints := []
  runState    := .idle
  reports     := []

end Sys2Proof.Machine
end

