-- ==== Sys2Proof/Machine/Ops.lean ====
section
/-! DEFINITION. The named operations on the state: the memories, the Register File and its checked
accessors (spec/10_state.md R11 to R13), the six Data Memory accessors (spec/20_memory.md R31 to
R37), the pc, and the shared endings of an instruction. There is no exception entry and no return
from one: "There is no trap entry. No condition saves any state, changes any mode or mask ... or
transfers control to a vector" (spec/60_exceptions.md R176, R177); the two conditions a step can
raise end in finishRegister and finishStore (Invalid-Index) and reportUnsupported. -/

namespace Sys2Proof.Machine

/-- What every meaning, and the step, answers. -/
abbrev Outcome := Host.Outcome State Fault Refusal

/-! ## A memory -/

/-- The word at an index; an index that is not listed reads as `fill`, which is Config.dmemReset in
the Data Memory and Config.imemFill in the Instruction Store. -/
def Memory.read (fill : Word) : Memory → Nat → Word
  | [], _ => fill
  | (b, v) :: m, a => if a = b then v else Memory.read fill m a

/-- The memory with one word replaced, in canonical form: writing what an unlisted index reads as
removes the entry. -/
def Memory.write (fill : Word) : Memory → Nat → Word → Memory
  | [], a, v => if v = fill then [] else [(a, v)]
  | (b, u) :: m, a, v =>
    if a < b then (if v = fill then (b, u) :: m else (a, v) :: (b, u) :: m)
    else if a = b then (if v = fill then m else (a, v) :: m)
    else (b, u) :: Memory.write fill m a v

/-- Indices strictly rising from `lo`, all below `hi`, and no word that an unlisted index reads as (`fill`). -/
def Memory.wfFrom (fill : Word) (hi : Nat) : Nat → Memory → Bool
  | _, [] => true
  | lo, (a, v) :: m =>
    decide (lo ≤ a) && decide (a < hi) && decide (v ≠ fill) && Memory.wfFrom fill hi (a + 1) m

/-- The canonical form: equal memories are equal lists. -/
def Memory.wf (fill : Word) (hi : Nat) (m : Memory) : Bool := Memory.wfFrom fill hi 0 m

/-! ## The bounds check -/

/-- "index must be validated in [0, bound) before any read/write": outside it the access fails with
Invalid-Index (R11, R12, R37). An index inside is a natural number. -/
def checkIndex (bound : Nat) (i : Int) : Except Fault Nat :=
  if 0 ≤ i ∧ i < bound then .ok i.toNat else .error (.invalidIndex i)

/-! ## The Register File -/

/-- Register i. Register 0 is an ordinary register unless X0_HARDWIRED (R13). -/
def State.x (s : State) (i : RegIdx) : Word :=
  if Config.x0Hardwired && i == 0 then 0 else s.regs[i]

/-- Register i becomes v and no other register changes (R12), register 0 like any other (R13). -/
def State.setX (s : State) (i : RegIdx) (v : Word) : State :=
  if Config.x0Hardwired && i == 0 then s else { s with regs := s.regs.set i v }

/-- An index below 32 as a register index. -/
def regIdxOf (n : Nat) : RegIdx := Fin.ofNat 32 n

/-- `RegRead(i)` (R11). -/
def regRead (s : State) (i : Int) : Except Fault Word :=
  match checkIndex Config.nregs i with
  | .ok n => .ok (s.x (regIdxOf n))
  | .error f => .error f

/-- `RegWrite(i, v)` (R12). -/
def regWrite (s : State) (i : Int) (v : Word) : Except Fault State :=
  match checkIndex Config.nregs i with
  | .ok n => .ok (s.setX (regIdxOf n) v)
  | .error f => .error f

/-! ## The Data Memory -/

/-- `DMem[a]`. -/
def State.slot (s : State) (a : Nat) : Word := s.dmem.read Config.dmemReset a

/-- `DMem[a] <- v`. -/
def State.setSlot (s : State) (a : Nat) (v : Word) : State := { s with dmem := s.dmem.write Config.dmemReset a v }

/-- ReadWord(a) = `MemRead(a, 4)` (R31). -/
def readWord (s : State) (a : Int) : Except Fault Word :=
  match checkIndex Config.dmemWords a with
  | .ok n => .ok (s.slot n)
  | .error f => .error f

/-- ReadHalf(a) = `MemRead(a, 2)`: bits 15..0 of the slot (R32). -/
def readHalf (s : State) (a : Int) : Except Fault (BitVec 16) :=
  match checkIndex Config.dmemWords a with
  | .ok n => .ok ((s.slot n).extractLsb' 0 16)
  | .error f => .error f

/-- ReadByte(a) = `MemRead(a, 1)`: bits 7..0 of the slot (R33). -/
def readByte (s : State) (a : Int) : Except Fault (BitVec 8) :=
  match checkIndex Config.dmemWords a with
  | .ok n => .ok ((s.slot n).extractLsb' 0 8)
  | .error f => .error f

/-- A slot after its low n bits became v: the upper bits as the parameter NARROW_WRITE says, which
is that they are kept (R35, R36; D8: notes/assumptions/8.md). -/
def mergeLow {n : Nat} (old : Word) (v : BitVec n) : Word :=
  match Config.narrowWrite with
  | .merge => ((old >>> n) <<< n) ||| v.setWidth 32
  | .zero => v.setWidth 32
  | .sign => v.signExtend 32

/-- WriteWord(a, v) = `MemWrite(a, 4, v)` (R34). -/
def writeWord (s : State) (a : Int) (v : Word) : Except Fault State :=
  match checkIndex Config.dmemWords a with
  | .ok n => .ok (s.setSlot n v)
  | .error f => .error f

/-- WriteHalf(a, v) = `MemWrite(a, 2, v)`: bits 15..0 of the slot become bits 15..0 of v (R35). -/
def writeHalf (s : State) (a : Int) (v : Word) : Except Fault State :=
  match checkIndex Config.dmemWords a with
  | .ok n => .ok (s.setSlot n (mergeLow (s.slot n) (v.extractLsb' 0 16)))
  | .error f => .error f

/-- WriteByte(a, v) = `MemWrite(a, 1, v)`: bits 7..0 of the slot become bits 7..0 of v (R36). -/
def writeByte (s : State) (a : Int) (v : Word) : Except Fault State :=
  match checkIndex Config.dmemWords a with
  | .ok n => .ok (s.setSlot n (mergeLow (s.slot n) (v.extractLsb' 0 8)))
  | .error f => .error f

/-! ## The Instruction Store -/

/-- "An instruction is fetched only when 0 <= signed(pc) <= 1023" (R17). -/
def pcInRange (pc : Word) : Bool := decide (0 ≤ pc.toInt) && decide (pc.toInt < Config.imemWords)

/-- The Instruction Store index that a pc names: the pc itself, an index and not a byte address
(PC_UNIT; R15). -/
def fetchIndex (pc : Word) : Nat := pc.toNat * Config.pcUnit

/-- `Fetch(pc)` (R42): the word at the pc. It is called with the pc in range only. -/
def fetch (s : State) : Word := s.imem.read Config.imemFill (fetchIndex s.pc)

/-- The words of a list stored in the Instruction Store from index `i` on. -/
def storeProgram (m : Memory) (i : Nat) : List Word → Memory
  | [] => m
  | w :: ws => storeProgram (m.write Config.imemFill i w) (i + 1) ws

/-- The load (R202): word k of the program goes to IMem[k]. "This spec ... admits only n <= 1024":
a longer program is not loaded (notes/assumptions/6.md). -/
def loadProgram (s : State) (program : List Word) : Option State :=
  if program.length ≤ Config.imemWords then some { s with imem := storeProgram s.imem 0 program }
  else none

/-- A table word placed where the next step fetches. The pc moves only if it is out of range, where
nothing is ever fetched: then to its reset value (notes/assumptions/26.md). -/
def placeFetchWord (s : State) (nbits w : Nat) : State :=
  let pc := if pcInRange s.pc then s.pc else Config.pcReset
  { s with pc := pc, imem := s.imem.write Config.imemFill (fetchIndex pc) (tableWord nbits w) }

/-! ## The pc and the endings of an instruction -/

/-- The offset of a branch, a jump, a load or a store as it is added (IMM_SCALE; R84). -/
def scaleImm (imm : Word) : Word := imm * Config.immScale

/-- The target of a pc-relative transfer, before TRANSFER_POST_INCREMENT: "current PC + immediate"
(R84, R155). -/
def relativeTarget (pc imm : Word) : Word := pc + scaleImm imm

/-- `pc <- t`. -/
def State.setPc (s : State) (t : Word) : State := { s with pc := t }

/-- The default `pc <- pc + 1` (R16, R84), modulo 2^32 (D3: notes/assumptions/3.md). -/
def State.advance (s : State) : State := s.setPc (s.pc + Config.pcStep)

/-- `RunState <- r`: by the Session Controller only (R24). -/
def State.setRunState (s : State) (r : RunState) : State := { s with runState := r }

/-- The breakpoint p joins the Breakpoint Set. -/
def State.addBreakpoint (s : State) (p : Word) : State := { s with breakpoints := p :: s.breakpoints }

/-- One more report on the output. -/
def State.addReport (s : State) (r : Report) : State := { s with reports := r :: s.reports }

/-- The end of an instruction that writes one register and goes on at pc + 1: the value is written
(R85 step 4), or the accessor's Invalid-Index ends the step with no write of any kind (R85 step 3). -/
def finishRegister (s : State) (rd : RegIdx) : Except Fault Word → Outcome
  | .ok v => .next (s.setX rd v).advance
  | .error f => .fault f

/-- The end of a store: the memory write and pc + 1, or the accessor's Invalid-Index with nothing
written (R120). -/
def finishStore : Except Fault State → Outcome
  | .ok s => .next s.advance
  | .error f => .fault f

/-- The end of a JAL or a JALR: the link pc + 1 is written to rd and the pc takes the target, both
computed before (R85, R95, R96). -/
def finishJump (s : State) (rd : RegIdx) (target : Word) : Outcome :=
  .next ((s.setX rd (s.pc + Config.pcStep)).setPc target)

/-- The end of a branch: pc + immB if the condition holds, with nothing added after it
(TRANSFER_POST_INCREMENT = 0; D2: notes/assumptions/2.md), else pc + 1 (R100). -/
def finishBranch (s : State) (cond : Bool) (immB : Word) : Outcome :=
  .next (if cond then s.setPc (relativeTarget s.pc immB + Config.transferPostIncrement) else s.advance)

/-- The effect of an unsupported word (R172): one report, pc + 1, and no other change. -/
def reportUnsupported (s : State) (insn : Word) : Outcome :=
  .next (s.addReport ⟨s.pc, insn⟩).advance

end Sys2Proof.Machine
end

