-- ==== Sys2Proof/Machine/Operands.lean ====
section
/-! DEFINITION. The operand forms: the effective address of a load or a store, the jump targets, and
the shift amount. Registers and immediates are operands as they stand (spec/30_encoding.md R53). -/

namespace Sys2Proof.Machine

/-- The one addressing mode: base register plus sign-extended offset, a 32-bit wrapping sum, read as
a SIGNED slot index (spec/20_memory.md R37, spec/44_loads.md R110, spec/45_stores.md R120). -/
def effectiveAddress (s : State) (base : RegIdx) (offset : Word) : Int := (s.x base + scaleImm offset).toInt

/-- JAL's target: pc + immJ, unscaled, with nothing added after it (spec/42_jumps.md R95;
TRANSFER_POST_INCREMENT = 0, D2: notes/assumptions/2.md). -/
def jalTarget (s : State) (immJ : Word) : Word := relativeTarget s.pc immJ + Config.transferPostIncrement

/-- JALR's target: (x[rs1] + immI) with bit 0 cleared (spec/42_jumps.md R96). -/
def jalrTarget (s : State) (rs1 : RegIdx) (immI : Word) : Word := (s.x rs1 + scaleImm immI) &&& 0xFFFFFFFE

/-- The shift amount: the low 5 bits of the register, 0..31 (spec/40_execution_step.md R88). -/
def shiftAmount (b : Word) : Nat := (b &&& Config.shamtMask).toNat

end Sys2Proof.Machine
end

