-- ==== Sys2Proof/Machine/Flags.lean ====
section
/-! DEFINITION. "There are no status flags, condition codes or predicate registers ... No instruction
has a flag side effect" (spec/10_state.md R18). What stands in their place are the comparisons,
which deliver a branch decision or a 0/1 value (spec/40_execution_step.md R87). -/

namespace Sys2Proof.Machine

/-- `a <s b`: signed(a) < signed(b). -/
def lessSigned (a b : Word) : Bool := decide (a.toInt < b.toInt)

/-- `a <u b`: unsigned(a) < unsigned(b). -/
def lessUnsigned (a b : Word) : Bool := decide (a.toNat < b.toNat)

/-- A comparison's result as the 32-bit value 0x00000001 or 0x00000000. -/
def flagWord (c : Bool) : Word := if c then 1 else 0

end Sys2Proof.Machine
end

