-- ==== Sys2Proof/Machine/AluImmediate.lean ====
section
/-! DEFINITION. The six register-immediate instructions (spec/46_alu_immediate.md R125):
`x[rd] <- op(x[rs1], immI); pc <- pc + 1`. -/

namespace Sys2Proof.Machine

/-- ADDI: `x[rs1] + immI` modulo 2^32 (R126). -/
def execAddi (rd rs1 : RegIdx) (immI : Word) (s : State) : Outcome :=
  finishRegister s rd (.ok (s.x rs1 + immI))

/-- SLTI: 1 if `x[rs1] <s immI`, else 0 (R127). -/
def execSlti (rd rs1 : RegIdx) (immI : Word) (s : State) : Outcome :=
  finishRegister s rd (.ok (flagWord (lessSigned (s.x rs1) immI)))

/-- SLTIU: 1 if `x[rs1] <u immI`, else 0, immI sign-extended and then read as unsigned
(R128; D22: notes/assumptions/20.md). -/
def execSltiu (rd rs1 : RegIdx) (immI : Word) (s : State) : Outcome :=
  finishRegister s rd (.ok (flagWord (lessUnsigned (s.x rs1) immI)))

/-- XORI: `x[rs1] ^ immI` (R129). -/
def execXori (rd rs1 : RegIdx) (immI : Word) (s : State) : Outcome :=
  finishRegister s rd (.ok (s.x rs1 ^^^ immI))

/-- ORI: `x[rs1] | immI` (R130). -/
def execOri (rd rs1 : RegIdx) (immI : Word) (s : State) : Outcome :=
  finishRegister s rd (.ok (s.x rs1 ||| immI))

/-- ANDI: `x[rs1] & immI` (R131). -/
def execAndi (rd rs1 : RegIdx) (immI : Word) (s : State) : Outcome :=
  finishRegister s rd (.ok (s.x rs1 &&& immI))

end Sys2Proof.Machine
end

