-- ==== Sys2Proof/Machine/AluRegister.lean ====
section
/-! DEFINITION. The ten register-register instructions (spec/47_alu_register.md R135), with a = x[rs1] and
b = x[rs2]: `x[rd] <- op(a, b); pc <- pc + 1`. -/

namespace Sys2Proof.Machine

/-- ADD: `a + b` modulo 2^32 (R136). -/
def execAdd (rd rs1 rs2 : RegIdx) (s : State) : Outcome :=
  finishRegister s rd (.ok (s.x rs1 + s.x rs2))

/-- SUB: `a - b` modulo 2^32 (R137). -/
def execSub (rd rs1 rs2 : RegIdx) (s : State) : Outcome :=
  finishRegister s rd (.ok (s.x rs1 - s.x rs2))

/-- SLL: `a << (b & 0x1F)` (R138). -/
def execSll (rd rs1 rs2 : RegIdx) (s : State) : Outcome :=
  finishRegister s rd (.ok (s.x rs1 <<< shiftAmount (s.x rs2)))

/-- SLT: 1 if `a <s b`, else 0 (R139). -/
def execSlt (rd rs1 rs2 : RegIdx) (s : State) : Outcome :=
  finishRegister s rd (.ok (flagWord (lessSigned (s.x rs1) (s.x rs2))))

/-- SLTU: 1 if `a <u b`, else 0 (R140). -/
def execSltu (rd rs1 rs2 : RegIdx) (s : State) : Outcome :=
  finishRegister s rd (.ok (flagWord (lessUnsigned (s.x rs1) (s.x rs2))))

/-- XOR: `a ^ b` (R141). -/
def execXor (rd rs1 rs2 : RegIdx) (s : State) : Outcome :=
  finishRegister s rd (.ok (s.x rs1 ^^^ s.x rs2))

/-- SRL: `a >>u (b & 0x1F)`, zeros enter at the top (R142). -/
def execSrl (rd rs1 rs2 : RegIdx) (s : State) : Outcome :=
  finishRegister s rd (.ok (s.x rs1 >>> shiftAmount (s.x rs2)))

/-- SRA: `a >>s (b & 0x1F)`, copies of bit 31 enter at the top (R143). -/
def execSra (rd rs1 rs2 : RegIdx) (s : State) : Outcome :=
  finishRegister s rd (.ok ((s.x rs1).sshiftRight (shiftAmount (s.x rs2))))

/-- OR: `a | b` (R144). -/
def execOr (rd rs1 rs2 : RegIdx) (s : State) : Outcome :=
  finishRegister s rd (.ok (s.x rs1 ||| s.x rs2))

/-- AND: `a & b` (R145). -/
def execAnd (rd rs1 rs2 : RegIdx) (s : State) : Outcome :=
  finishRegister s rd (.ok (s.x rs1 &&& s.x rs2))

end Sys2Proof.Machine
end

