-- ==== Sys2Proof/Machine/Branches.lean ====
section
/-! DEFINITION. The six conditional branches (spec/43_branches.md R100), with a = x[rs1] and b = x[rs2]. -/

namespace Sys2Proof.Machine

/-- BEQ: taken if a = b, all 32 bits (R101). -/
def execBeq (rs1 rs2 : RegIdx) (immB : Word) (s : State) : Outcome :=
  finishBranch s (s.x rs1 == s.x rs2) immB

/-- BNE: taken if a != b (R102). -/
def execBne (rs1 rs2 : RegIdx) (immB : Word) (s : State) : Outcome :=
  finishBranch s (s.x rs1 != s.x rs2) immB

/-- BLT: taken if a <s b (R103). -/
def execBlt (rs1 rs2 : RegIdx) (immB : Word) (s : State) : Outcome :=
  finishBranch s (lessSigned (s.x rs1) (s.x rs2)) immB

/-- BGE: taken if a >=s b (R104). -/
def execBge (rs1 rs2 : RegIdx) (immB : Word) (s : State) : Outcome :=
  finishBranch s (!lessSigned (s.x rs1) (s.x rs2)) immB

/-- BLTU: taken if a <u b (R105). -/
def execBltu (rs1 rs2 : RegIdx) (immB : Word) (s : State) : Outcome :=
  finishBranch s (lessUnsigned (s.x rs1) (s.x rs2)) immB

/-- BGEU: taken if a >=u b (R106). -/
def execBgeu (rs1 rs2 : RegIdx) (immB : Word) (s : State) : Outcome :=
  finishBranch s (!lessUnsigned (s.x rs1) (s.x rs2)) immB

end Sys2Proof.Machine
end

