-- ==== Sys2Proof/Machine/Jumps.lean ====
section
/-! DEFINITION. JAL and JALR (spec/42_jumps.md). -/

namespace Sys2Proof.Machine

/-- JAL: `x[rd] <- pc + 1; pc <- pc + immJ` (R95). rd = 0 does not discard the link. -/
def execJal (rd : RegIdx) (immJ : Word) (s : State) : Outcome :=
  finishJump s rd (jalTarget s immJ)

/-- JALR: the target is `(x[rs1] + immI) & 0xFFFFFFFE` from the OLD x[rs1]; `x[rd] <- pc + 1;
pc <- target` (R96). -/
def execJalr (rd rs1 : RegIdx) (immI : Word) (s : State) : Outcome :=
  finishJump s rd (jalrTarget s rs1 immI)

end Sys2Proof.Machine
end

