-- ==== Sys2Proof/Machine/Loads.lean ====
section
/-! DEFINITION. The five loads (spec/44_loads.md R110): addr = x[rs1] + immI, Invalid-Index with nothing
written when it is out of range, else x[rd] takes the low bits of the ONE slot addr. -/

namespace Sys2Proof.Machine

/-- `zext_N(v)`: bits N-1..0 are v and every higher bit is 0 (spec/00_scope.md R5). -/
def zext {n : Nat} (v : BitVec n) : Word := v.setWidth 32

/-- LB: `x[rd] <- sext_8(MemRead(addr, 1))` (R111). -/
def execLb (rd rs1 : RegIdx) (immI : Word) (s : State) : Outcome :=
  finishRegister s rd ((readByte s (effectiveAddress s rs1 immI)).map sext)

/-- LH: `x[rd] <- sext_16(MemRead(addr, 2))` (R112). -/
def execLh (rd rs1 : RegIdx) (immI : Word) (s : State) : Outcome :=
  finishRegister s rd ((readHalf s (effectiveAddress s rs1 immI)).map sext)

/-- LW: `x[rd] <- MemRead(addr, 4)`, raw (R113). -/
def execLw (rd rs1 : RegIdx) (immI : Word) (s : State) : Outcome :=
  finishRegister s rd (readWord s (effectiveAddress s rs1 immI))

/-- LBU: `x[rd] <- zext_8(MemRead(addr, 1))` (R114). -/
def execLbu (rd rs1 : RegIdx) (immI : Word) (s : State) : Outcome :=
  finishRegister s rd ((readByte s (effectiveAddress s rs1 immI)).map zext)

/-- LHU: `x[rd] <- zext_16(MemRead(addr, 2))` (R115). -/
def execLhu (rd rs1 : RegIdx) (immI : Word) (s : State) : Outcome :=
  finishRegister s rd ((readHalf s (effectiveAddress s rs1 immI)).map zext)

end Sys2Proof.Machine
end

