-- ==== Sys2Proof/Machine/Stores.lean ====
section
/-! DEFINITION. The three stores (spec/45_stores.md R120): addr = x[rs1] + immS, Invalid-Index with nothing
written when it is out of range, else the ONE slot addr takes the low bits of x[rs2]. -/

namespace Sys2Proof.Machine

/-- SB: bits 7..0 of the slot become bits 7..0 of x[rs2] (R121). -/
def execSb (rs1 rs2 : RegIdx) (immS : Word) (s : State) : Outcome :=
  finishStore (writeByte s (effectiveAddress s rs1 immS) (s.x rs2))

/-- SH: bits 15..0 of the slot become bits 15..0 of x[rs2] (R122). -/
def execSh (rs1 rs2 : RegIdx) (immS : Word) (s : State) : Outcome :=
  finishStore (writeHalf s (effectiveAddress s rs1 immS) (s.x rs2))

/-- SW: the slot becomes x[rs2] (R123). -/
def execSw (rs1 rs2 : RegIdx) (immS : Word) (s : State) : Outcome :=
  finishStore (writeWord s (effectiveAddress s rs1 immS) (s.x rs2))

end Sys2Proof.Machine
end

