-- ==== Sys2Proof/Machine/UpperImmediate.lean ====
section
/-! DEFINITION. LUI and AUIPC (spec/41_upper_immediate.md). -/

namespace Sys2Proof.Machine

/-- LUI: `x[rd] <- immU` (R90). -/
def execLui (rd : RegIdx) (immU : Word) (s : State) : Outcome :=
  finishRegister s rd (.ok immU)

/-- AUIPC: `x[rd] <- pc + immU`, with the word INDEX of this instruction (R91). -/
def execAuipc (rd : RegIdx) (immU : Word) (s : State) : Outcome :=
  finishRegister s rd (.ok (s.pc + immU))

end Sys2Proof.Machine
end

