-- ==== Sys2Proof/Machine/Dispatch.lean ====
section
/-! DEFINITION. One arm per instruction: its meaning (spec/40_execution_step.md R82). -/

namespace Sys2Proof.Machine

def exec (i : Instr) (s : State) : Host.Outcome State Fault Refusal :=
  match i with
  -- upper immediate
  | .lui rd immU => Sys2Proof.Machine.execLui rd immU s
  | .auipc rd immU => Sys2Proof.Machine.execAuipc rd immU s
  -- jumps
  | .jal rd immJ => Sys2Proof.Machine.execJal rd immJ s
  | .jalr rd rs1 immI => Sys2Proof.Machine.execJalr rd rs1 immI s
  -- branches
  | .beq rs1 rs2 immB => Sys2Proof.Machine.execBeq rs1 rs2 immB s
  | .bne rs1 rs2 immB => Sys2Proof.Machine.execBne rs1 rs2 immB s
  | .blt rs1 rs2 immB => Sys2Proof.Machine.execBlt rs1 rs2 immB s
  | .bge rs1 rs2 immB => Sys2Proof.Machine.execBge rs1 rs2 immB s
  | .bltu rs1 rs2 immB => Sys2Proof.Machine.execBltu rs1 rs2 immB s
  | .bgeu rs1 rs2 immB => Sys2Proof.Machine.execBgeu rs1 rs2 immB s
  -- loads
  | .lb rd rs1 immI => Sys2Proof.Machine.execLb rd rs1 immI s
  | .lh rd rs1 immI => Sys2Proof.Machine.execLh rd rs1 immI s
  | .lw rd rs1 immI => Sys2Proof.Machine.execLw rd rs1 immI s
  | .lbu rd rs1 immI => Sys2Proof.Machine.execLbu rd rs1 immI s
  | .lhu rd rs1 immI => Sys2Proof.Machine.execLhu rd rs1 immI s
  -- stores
  | .sb rs1 rs2 immS => Sys2Proof.Machine.execSb rs1 rs2 immS s
  | .sh rs1 rs2 immS => Sys2Proof.Machine.execSh rs1 rs2 immS s
  | .sw rs1 rs2 immS => Sys2Proof.Machine.execSw rs1 rs2 immS s
  -- register-immediate ALU
  | .addi rd rs1 immI => Sys2Proof.Machine.execAddi rd rs1 immI s
  | .slti rd rs1 immI => Sys2Proof.Machine.execSlti rd rs1 immI s
  | .sltiu rd rs1 immI => Sys2Proof.Machine.execSltiu rd rs1 immI s
  | .xori rd rs1 immI => Sys2Proof.Machine.execXori rd rs1 immI s
  | .ori rd rs1 immI => Sys2Proof.Machine.execOri rd rs1 immI s
  | .andi rd rs1 immI => Sys2Proof.Machine.execAndi rd rs1 immI s
  -- register-register ALU
  | .add rd rs1 rs2 => Sys2Proof.Machine.execAdd rd rs1 rs2 s
  | .sub rd rs1 rs2 => Sys2Proof.Machine.execSub rd rs1 rs2 s
  | .sll rd rs1 rs2 => Sys2Proof.Machine.execSll rd rs1 rs2 s
  | .slt rd rs1 rs2 => Sys2Proof.Machine.execSlt rd rs1 rs2 s
  | .sltu rd rs1 rs2 => Sys2Proof.Machine.execSltu rd rs1 rs2 s
  | .xor rd rs1 rs2 => Sys2Proof.Machine.execXor rd rs1 rs2 s
  | .srl rd rs1 rs2 => Sys2Proof.Machine.execSrl rd rs1 rs2 s
  | .sra rd rs1 rs2 => Sys2Proof.Machine.execSra rd rs1 rs2 s
  | .or rd rs1 rs2 => Sys2Proof.Machine.execOr rd rs1 rs2 s
  | .and rd rs1 rs2 => Sys2Proof.Machine.execAnd rd rs1 rs2 s

end Sys2Proof.Machine
end

