-- ==== Sys2Proof/Machine/Engine.lean ====
section
/-! DEFINITION. The execution step (spec/40_execution_step.md R80 to R82): fetch, decode, execute,
and the outcome the step reports. -/

namespace Sys2Proof.Machine

/-- `Execute(fields, pc)` (R82): the selected instruction's meaning; if no instruction is selected,
no writes, pc + 1, and the Unsupported report of the word. -/
def execute (f : Fields) (insn : Word) (s : State) : Outcome :=
  match select f with
  | .ok i => exec i s
  | .error _ => reportUnsupported s insn

/-- `Step()` (R80): at most one instruction, as one indivisible event. With the pc outside 0..1023
it is AlreadyFinished, "no state change at all" (notes/assumptions/25.md). Fault(InvalidIndex) is
the fault outcome, "no state change at all; pc unchanged" (notes/assumptions/16.md). -/
def stepOnce (s : State) : Outcome :=
  if pcInRange s.pc then execute (decodeFields (fetch s)) (fetch s) s else .next s

/-- The outcomes of a step (R81). -/
inductive StepOutcome
  /-- A supported instruction completed. -/
  | ok
  /-- The word matches no supported instruction; the report carries it. -/
  | unsupported (insn : Word)
  /-- Fault(InvalidIndex): a load or store computed an address outside 0..1023. -/
  | invalidIndex (index : Int)
  /-- The pc was outside 0..1023 at the start of the step. -/
  | alreadyFinished
  /-- The model refused the instruction: no arm of exec does. -/
  | refusedByModel (r : Refusal)
  deriving DecidableEq, Repr

/-- The outcome that a step from this state reports (R80, R81): "an output event per unsupported
step, carried in the step outcome" (D21). -/
def stepOutcome (s : State) : StepOutcome :=
  if pcInRange s.pc then
    match decode (fetch s) with
    | .error _ => .unsupported (fetch s)
    | .ok i =>
      match exec i s with
      | .next _ => .ok
      | .fault (.invalidIndex a) => .invalidIndex a
      | .refused r => .refusedByModel r
  else .alreadyFinished

end Sys2Proof.Machine
end

