-- ==== Sys2Proof/Machine/Step.lean ====
section
/-! DEFINITION. The machine's step is the spec's `Step()` (spec/40_execution_step.md R80); the
Session Controller that sequences it is Machine/Session.lean (notes/assumptions/24.md). -/

namespace Sys2Proof.Machine

/-- One step. -/
def step (s : State) : Host.Outcome State Fault Refusal := stepOnce s

/-- The state with an instruction of the opcode table stored where the next step fetches. -/
def State.withFetchWord (s : State) (nbits w : Nat) : State := placeFetchWord s nbits w

end Sys2Proof.Machine
end

