-- ==== Sys2Proof/Machine/Disassembler.lean ====
section
/-! DEFINITION. The Disassembler (spec/48_disassembler.md): the structured result (mnemonic, operand
list), and the rendering to text kept apart from it, "so that only the rendering carries the
decisions" (R162; D13: notes/assumptions/13.md). It changes no state and reads none. -/

namespace Sys2Proof.Machine

/-- An operand of the text form. -/
inductive Operand
  /-- A register, `x<index>` (R151). -/
  | reg (i : RegIdx)
  /-- An immediate (R153). -/
  | imm (v : Int)
  /-- An absolute target, "current PC + immediate", a word index (R155, R157). -/
  | target (v : Int)
  /-- A load or store operand, `imm(xrs1)` (R158, R159). -/
  | mem (offset : Int) (base : RegIdx)
  deriving DecidableEq, Repr

/-- The structured result. -/
inductive Disassembly
  | instruction (mnemonic : String) (operands : List Operand)
  /-- The explicit unsupported marker (R161). -/
  | unsupported
  deriving DecidableEq, Repr

/-- The operands in the order they are printed, at the pc of the instruction (R154 to R160). -/
def operandsOf (pc : Word) : Instr → List Operand
  | .lui rd imm | .auipc rd imm => [.reg rd, .imm imm.toInt]
  | .jal rd imm => [.reg rd, .target (relativeTarget pc imm).toInt]
  | .jalr rd rs1 imm => [.reg rd, .reg rs1, .imm imm.toInt]
  | .beq rs1 rs2 imm | .bne rs1 rs2 imm | .blt rs1 rs2 imm | .bge rs1 rs2 imm | .bltu rs1 rs2 imm
  | .bgeu rs1 rs2 imm => [.reg rs1, .reg rs2, .target (relativeTarget pc imm).toInt]
  | .lb rd rs1 imm | .lh rd rs1 imm | .lw rd rs1 imm | .lbu rd rs1 imm | .lhu rd rs1 imm =>
    [.reg rd, .mem imm.toInt rs1]
  | .sb rs1 rs2 imm | .sh rs1 rs2 imm | .sw rs1 rs2 imm => [.reg rs2, .mem imm.toInt rs1]
  | .addi rd rs1 imm | .slti rd rs1 imm | .sltiu rd rs1 imm | .xori rd rs1 imm | .ori rd rs1 imm
  | .andi rd rs1 imm => [.reg rd, .reg rs1, .imm imm.toInt]
  | .add rd rs1 rs2 | .sub rd rs1 rs2 | .sll rd rs1 rs2 | .slt rd rs1 rs2 | .sltu rd rs1 rs2
  | .xor rd rs1 rs2 | .srl rd rs1 rs2 | .sra rd rs1 rs2 | .or rd rs1 rs2 | .and rd rs1 rs2 =>
    [.reg rd, .reg rs1, .reg rs2]

/-- `Disassemble(fields, pc)`: total; the instruction is the one the engine selects (R150, R152). -/
def disassemble (f : Fields) (pc : Word) : Disassembly :=
  match select f with
  | .ok i => .instruction (mnemonicOf i) (operandsOf pc i)
  | .error _ => .unsupported

/-- A register as text: `x` and the index in decimal (R151). -/
def regText (i : RegIdx) : String := "x" ++ toString i.val

/-- An operand as text: numbers in signed decimal (R153), no space inside a memory operand (R158). -/
def operandText : Operand → String
  | .reg i => regText i
  | .imm v => toString v
  | .target v => toString v
  | .mem offset base => toString offset ++ "(" ++ regText base ++ ")"

/-- The text: the mnemonic, one space, the operands separated by a comma and one space (R151), or
the single token UNSUPPORTED (R161). -/
def disassemblyText : Disassembly → String
  | .instruction mnemonic operands =>
    mnemonic ++ " " ++ String.intercalate ", " (operands.map operandText)
  | .unsupported => "UNSUPPORTED"

/-- The trace line of the step from this state, `PC: <pc>, <disassembly>`, one per executed
instruction (R163); none for a step that faults (D14: notes/assumptions/14.md) or executes nothing. -/
def traceLine (s : State) : Option String :=
  match stepOutcome s with
  | .ok | .unsupported _ =>
    some ("PC: " ++ toString s.pc.toInt ++ ", " ++
      disassemblyText (disassemble (decodeFields (fetch s)) s.pc))
  | .invalidIndex _ | .alreadyFinished | .refusedByModel _ => none

end Sys2Proof.Machine
end

