-- ==== Sys2Proof/Machine/Session.lean ====
section
/-! DEFINITION. The Session Controller (spec/60_exceptions.md R180 to R194): the host's commands,
each run to completion between two instruction loops. The text of the commands is the prompt's and
out of scope (spec/00_scope.md R9); their semantics stands here. A `run` or `continue` may never
return (R182), so its loop takes fuel and a command whose fuel is spent is still running
(notes/assumptions/24.md). -/

namespace Sys2Proof.Machine

/-- The commands of the host (R193). -/
inductive Command
  /-- `r` (R182). -/
  | run
  /-- `s` (R183). -/
  | stepOne
  /-- `c` (R184). -/
  | resume
  /-- `b <pc>` (R186). -/
  | setBreakpoint (p : Word)
  /-- `pc` (R187). -/
  | readPc
  /-- `insn` (R188). -/
  | readInsn
  /-- `x<N>` (R190). -/
  | readReg (n : Int)
  /-- `0x<hex>` (R191). -/
  | readSlot (a : Int)
  /-- `exit` (R192). -/
  | exit
  /-- Text the prompt cannot parse: Malformed-Command (R170). -/
  | malformed
  /-- "Any other input" (R192). -/
  | other
  deriving DecidableEq, Repr

/-- What a command reports to the host (R193); Unsupported reports are on the state's output. -/
inductive Reply
  /-- "report completion": the pc left the range (R182, R184). -/
  | completion
  /-- "report breakpoint-hit at pc" (R182, R184). -/
  | breakpointHit (pc : Word)
  /-- `s` executed one instruction: it reports nothing (R193). -/
  | stepped
  /-- "report already-finished" (R183, R188). -/
  | alreadyFinished
  /-- Invalid-Index (R171): the command is aborted, or the inspected index is out of bounds. -/
  | invalidIndex (index : Int)
  /-- `b` succeeded (R186). -/
  | breakpointAdded
  /-- Breakpoint-Limit/Duplicate: "command reports failure, state unchanged" (R186). -/
  | breakpointRejected
  /-- A value, read as a signed 32-bit integer (R187, R190, R191). -/
  | value (v : Int)
  /-- The disassembly of the instruction at the pc (R188). -/
  | disassembly (d : Disassembly)
  /-- Malformed-Command: "reported, session continues" (R170). -/
  | malformedCommand
  /-- "reported as unhandled" (R192). -/
  | unhandled
  /-- The model refused an instruction: no arm of exec does. -/
  | refusedByModel (r : Refusal)
  deriving DecidableEq, Repr

/-- How a command ended. -/
inductive CommandResult
  /-- Control returned to the host, with a report. -/
  | returned (s : State) (r : Reply)
  /-- The fuel is spent and the command is still in progress. -/
  | inProgress (s : State)
  /-- `exit`: "after it no state is observable" (R192). -/
  | sessionEnded
  deriving DecidableEq, Repr

/-- One pass of a command's loop: it goes on, or the command ends. -/
inductive Turn
  | again (s : State)
  | ended (s : State) (r : Reply)
  deriving DecidableEq, Repr

/-- The pc left the range: Halted, and a report (R181). -/
def endHalted (s : State) (r : Reply) : Turn := .ended (s.setRunState .halted) r

/-- The pc is a breakpoint: StoppedAtBreakpoint, "report breakpoint-hit at pc" (R180). -/
def endAtBreakpoint (s : State) : Turn :=
  .ended (s.setRunState .stoppedAtBreakpoint) (.breakpointHit s.pc)

/-- One step inside a command. On Invalid-Index the command is aborted: the state is as before the
step, and the Run State becomes Idle (R185; D18: notes/assumptions/16.md). -/
def turnStep (s : State) (andThen : State → Turn) : Turn :=
  match step s with
  | .next t => andThen t
  | .fault (.invalidIndex a) => .ended (s.setRunState .idle) (.invalidIndex a)
  | .refused r => .ended (s.setRunState .idle) (.refusedByModel r)

/-- One pass of the loop of `Run()` (R182): the breakpoint check comes BEFORE the instruction. -/
def runTurn (s : State) : Turn :=
  if !pcInRange s.pc then endHalted s .completion
  else if s.breakpoints.contains s.pc then endAtBreakpoint s
  else turnStep s .again

/-- "allowing execution to proceed through the last valid PC index even if it is a breakpoint": a
breakpoint there does not stop `continue` (R184; D15: notes/assumptions/15.md). -/
def lastIndex : Word := BitVec.ofNat 32 (Config.imemWords - 1)

/-- `Continue()` after its instruction (R184): out of range first, then the breakpoint check. -/
def continueCheck (s : State) : Turn :=
  if !pcInRange s.pc then endHalted s .completion
  else if s.breakpoints.contains s.pc && s.pc != lastIndex then endAtBreakpoint s
  else .again s

/-- One pass of the loop of `Continue()` (R184): the breakpoint check comes AFTER the instruction. -/
def continueTurn (s : State) : Turn :=
  if !pcInRange s.pc then endHalted s .completion
  else turnStep s continueCheck

/-- `StepCmd()` after its instruction (R183): Halted or Idle, no breakpoint check
(D17: notes/assumptions/16.md). -/
def stepCheck (s : State) : Turn :=
  if !pcInRange s.pc then endHalted s .stepped else .ended (s.setRunState .idle) .stepped

/-- `StepCmd()` (R183), a single pass. -/
def stepTurn (s : State) : Turn :=
  if !pcInRange s.pc then endHalted s .alreadyFinished
  else turnStep (s.setRunState .running) stepCheck

/-- The passes of a command, until it ends or the fuel is spent. -/
def loop (turn : State → Turn) : Nat → State → CommandResult
  | 0, s => .inProgress s
  | fuel + 1, s =>
    match turn s with
    | .again t => loop turn fuel t
    | .ended t r => .returned t r

/-- `AddBreakpoint(p)` (R186): rejected if p is in the set already or the set is full. -/
def addBreakpointCommand (s : State) (p : Word) : CommandResult :=
  if s.breakpoints.contains p || decide (Config.maxBreakpoints ≤ s.breakpoints.length) then
    .returned s .breakpointRejected
  else .returned (s.addBreakpoint p) .breakpointAdded

/-- A value an inspection read delivers, or the accessor's Invalid-Index (R190, R191). -/
def inspect (s : State) : Except Fault Word → CommandResult
  | .ok v => .returned s (.value v.toInt)
  | .error (.invalidIndex a) => .returned s (.invalidIndex a)

/-- `insn` (R188); with the pc out of range "this spec reports already-finished"
(D20: notes/assumptions/19.md). -/
def insnCommand (s : State) : CommandResult :=
  if pcInRange s.pc then
    .returned s (.disassembly (disassemble (decodeFields (fetch s)) s.pc))
  else .returned s .alreadyFinished

/-- A command of the host, run to completion or until the fuel is spent. -/
def command (fuel : Nat) (c : Command) (s : State) : CommandResult :=
  match c with
  | .run => loop runTurn fuel (s.setRunState .running)
  | .stepOne => loop stepTurn fuel s
  | .resume => loop continueTurn fuel (s.setRunState .running)
  | .setBreakpoint p => addBreakpointCommand s p
  | .readPc => .returned s (.value s.pc.toInt)
  | .readInsn => insnCommand s
  | .readReg n => inspect s (regRead s n)
  | .readSlot a => inspect s (readWord s a)
  | .exit => .sessionEnded
  | .malformed => .returned s .malformedCommand
  | .other => .returned s .unhandled

/-- The start of a session: the state is created, then the loader stores the program (R201, R202). -/
def startSession (program : List Word) : Option State := loadProgram State.reset program

/-- Commands one after another, "one at a time to completion" (R174), each with the same fuel: the
replies in order, and the state control returned with, none if a command is still in progress or
the session has ended. -/
def session (fuel : Nat) : List Command → State → List Reply × Option State
  | [], s => ([], some s)
  | c :: cs, s =>
    match command fuel c s with
    | .returned t r => (r :: (session fuel cs t).1, (session fuel cs t).2)
    | .inProgress _ | .sessionEnded => ([], none)

end Sys2Proof.Machine
end

