-- ==== Sys2Proof/Safety.lean ====
section
/-! DEFINITION. The terms in which claims are stated: the invariant of the machine, what an
instruction writes, what a frame is, and what a safe run is. -/

namespace Sys2Proof.Machine

/-! ## Invariants -/

/-- What every step keeps: both memories are in their canonical form and hold indices 0..1023 only
(R21, R22), and the Breakpoint Set has up to five members, all distinct (R23). -/
structure MachineInv (s : State) : Prop where
  dmem : s.dmem.wf Config.dmemReset Config.dmemWords = true
  imem : s.imem.wf Config.imemFill Config.imemWords = true
  breakpointLimit : s.breakpoints.length ≤ Config.maxBreakpoints
  breakpointsDistinct : s.breakpoints.Nodup

/-- Halted (R17, R181): the pc is outside 0..1023. -/
def Halted (s : State) : Prop := pcInRange s.pc = false

/-- What holds between two commands: the invariant, and "the Run State is Halted if and only if pc
is outside 0..1023" (R180). -/
structure SessionInv (s : State) : Prop extends MachineInv s where
  haltedIff : s.runState = .halted ↔ Halted s

/-! ## What an instruction writes (R14, R82) -/

/-- The register an instruction writes (R14). -/
def destOf : Instr → Option RegIdx
  | .lui rd _ | .auipc rd _ | .jal rd _ | .jalr rd _ _ => some rd
  | .beq _ _ _ | .bne _ _ _ | .blt _ _ _ | .bge _ _ _ | .bltu _ _ _ | .bgeu _ _ _ => none
  | .lb rd _ _ | .lh rd _ _ | .lw rd _ _ | .lbu rd _ _ | .lhu rd _ _ => some rd
  | .sb _ _ _ | .sh _ _ _ | .sw _ _ _ => none
  | .addi rd _ _ | .slti rd _ _ | .sltiu rd _ _ | .xori rd _ _ | .ori rd _ _ | .andi rd _ _ => some rd
  | .add rd _ _ | .sub rd _ _ | .sll rd _ _ | .slt rd _ _ | .sltu rd _ _ | .xor rd _ _
  | .srl rd _ _ | .sra rd _ _ | .or rd _ _ | .and rd _ _ => some rd

/-- The slot index a store writes, as its meaning computes it (R120). -/
def storeAddressOf (s : State) : Instr → Option Int
  | .sb rs1 _ imm | .sh rs1 _ imm | .sw rs1 _ imm => some (effectiveAddress s rs1 imm)
  | .lui _ _ | .auipc _ _ | .jal _ _ | .jalr _ _ _ | .beq _ _ _ | .bne _ _ _ | .blt _ _ _ | .bge _ _ _
  | .bltu _ _ _ | .bgeu _ _ _ | .lb _ _ _ | .lh _ _ _ | .lw _ _ _ | .lbu _ _ _ | .lhu _ _ _
  | .addi _ _ _ | .slti _ _ _ | .sltiu _ _ _ | .xori _ _ _ | .ori _ _ _ | .andi _ _ _ | .add _ _ _
  | .sub _ _ _ | .sll _ _ _ | .slt _ _ _ | .sltu _ _ _ | .xor _ _ _ | .srl _ _ _ | .sra _ _ _
  | .or _ _ _ | .and _ _ _ => none

/-- The slot index a load or a store accesses (R110, R120). -/
def accessAddressOf (s : State) : Instr → Option Int
  | .lb _ rs1 imm | .lh _ rs1 imm | .lw _ rs1 imm | .lbu _ rs1 imm | .lhu _ rs1 imm =>
    some (effectiveAddress s rs1 imm)
  | .sb rs1 _ imm | .sh rs1 _ imm | .sw rs1 _ imm => some (effectiveAddress s rs1 imm)
  | .lui _ _ | .auipc _ _ | .jal _ _ | .jalr _ _ _ | .beq _ _ _ | .bne _ _ _ | .blt _ _ _ | .bge _ _ _
  | .bltu _ _ _ | .bgeu _ _ _ | .addi _ _ _ | .slti _ _ _ | .sltiu _ _ _ | .xori _ _ _ | .ori _ _ _
  | .andi _ _ _ | .add _ _ _ | .sub _ _ _ | .sll _ _ _ | .slt _ _ _ | .sltu _ _ _ | .xor _ _ _
  | .srl _ _ _ | .sra _ _ _ | .or _ _ _ | .and _ _ _ => none

/-- A slot index inside the Data Memory (R22, R37). -/
def InDataMemory (a : Int) : Prop := 0 ≤ a ∧ a < Config.dmemWords

/-- A control transfer: the instructions that may set the pc to anything but pc + 1 (R16). -/
def isTransfer : Instr → Bool
  | .jal _ _ | .jalr _ _ _ | .beq _ _ _ | .bne _ _ _ | .blt _ _ _ | .bge _ _ _ | .bltu _ _ _
  | .bgeu _ _ _ => true
  | .lui _ _ | .auipc _ _ | .lb _ _ _ | .lh _ _ _ | .lw _ _ _ | .lbu _ _ _ | .lhu _ _ _ | .sb _ _ _
  | .sh _ _ _ | .sw _ _ _ | .addi _ _ _ | .slti _ _ _ | .sltiu _ _ _ | .xori _ _ _ | .ori _ _ _
  | .andi _ _ _ | .add _ _ _ | .sub _ _ _ | .sll _ _ _ | .slt _ _ _ | .sltu _ _ _ | .xor _ _ _
  | .srl _ _ _ | .sra _ _ _ | .or _ _ _ | .and _ _ _ => false

/-! ## Frames -/

/-- From s to t nothing changed but register `rd` (if any), the Data Memory slot `a` (if any), and
the pc, which may be anything. -/
structure Frame (rd : Option RegIdx) (a : Option Int) (s t : State) : Prop where
  regs : ∀ r : RegIdx, rd ≠ some r → t.x r = s.x r
  slots : ∀ n : Nat, a ≠ some (n : Int) → t.slot n = s.slot n
  imem : t.imem = s.imem
  breakpoints : t.breakpoints = s.breakpoints
  runState : t.runState = s.runState
  reports : t.reports = s.reports

/-- The two states agree on everything the engine works on (R6: `Step()` touches x, DMem and pc and
reads IMem): they may differ in what the Session Controller owns and in the reports. -/
structure SameEngineState (s t : State) : Prop where
  regs : s.regs = t.regs
  pc : s.pc = t.pc
  dmem : s.dmem = t.dmem
  imem : s.imem = t.imem

/-! ## What an instruction answers -/

/-- The instruction completes: register rd holds a value that `result` describes, the pc is pc + 1,
and nothing else changed. -/
def RegisterResult (o : Outcome) (s : State) (rd : RegIdx) (result : Word → Prop) : Prop :=
  ∃ t, o = .next t ∧ result (t.x rd) ∧ t.pc = s.pc + 1 ∧ Frame (some rd) none s t

/-- The instruction completes: register rd holds the link pc + 1, the pc is one that `target`
describes, and nothing else changed. -/
def JumpResult (o : Outcome) (s : State) (rd : RegIdx) (target : Word → Prop) : Prop :=
  ∃ t, o = .next t ∧ t.x rd = s.pc + 1 ∧ target t.pc ∧ Frame (some rd) none s t

/-- The instruction completes: the pc is pc + immB if the condition holds, else pc + 1, and nothing
else changed. -/
def BranchResult (o : Outcome) (s : State) (immB : Word) (cond : Prop) : Prop :=
  ∃ t, o = .next t ∧ (cond → t.pc = s.pc + immB) ∧ (¬ cond → t.pc = s.pc + 1) ∧ Frame none none s t

/-- The instruction completes: slot a holds a word that `result` describes, the pc is pc + 1, and
nothing else changed. -/
def StoreResult (o : Outcome) (s : State) (a : Int) (result : Word → Prop) : Prop :=
  ∃ t, o = .next t ∧ result (t.slot a.toNat) ∧ t.pc = s.pc + 1 ∧ Frame none (some a) s t

/-! ## Safe runs -/

/-- k steps reach t without a fault or a refusal. -/
def Reaches (k : Nat) (s t : State) : Prop := core.run k s = .next t

/-- k steps from s neither fault nor report an unsupported instruction: the premise R194 names for a
claim about a final state, "no fault and, if it cares, no Unsupported report". -/
def SafeRun (k : Nat) (s : State) : Prop := ∃ t, Reaches k s t ∧ t.reports = s.reports

end Sys2Proof.Machine
end

