-- ==== Sys2Proof/Certificates/Slice0/Obligations.lean ====
section
/-! DEFINITION. What is claimed of the model, each from the numbered rules of spec/. A statement that
rests on a decision the spec made itself (its D<n>) names the entry of notes/assumptions. -/

open Sys2Proof Sys2Proof.Machine

/-! ## Reset and the invariants -/

/-- R26, R201: the state at reset, before the load. Every zero but the pc's and x0's is a decision
of the spec, and the field reports is the model's own (notes/assumptions/4.md to 7.md, 17.md). -/
def Obligations.ResetStateAsSpecified : Prop :=
  (∀ r : RegIdx, State.reset.x r = 0) ∧ State.reset.pc = 0 ∧
    (∀ n, State.reset.slot n = 0) ∧ (∀ n, State.reset.imem.read Config.imemFill n = 0) ∧
    State.reset.breakpoints = [] ∧ State.reset.runState = .idle ∧ State.reset.reports = []

/-- The invariants hold at reset. -/
def Obligations.ResetSatisfiesInvariant : Prop := SessionInv State.reset

/-- Every step keeps the canonical memories inside their bounds (R21, R22) and the Breakpoint Set
within five distinct members (R23). The canonical form is the model's own (notes/assumptions/23.md). -/
def Obligations.StepKeepsInvariant : Prop :=
  ∀ s t : State, MachineInv s → step s = .next t → MachineInv t

/-- Every command that returns keeps the invariant, and with it "whenever a command returns, the Run
State is Halted if and only if pc is outside 0..1023" (R180, the spec's own derivation). -/
def Obligations.SessionKeepsInvariant : Prop :=
  ∀ (fuel : Nat) (c : Command) (s t : State) (r : Reply),
    SessionInv s → command fuel c s = .returned t r → SessionInv t

/-! ## Encoding -/

/-- R53, R57 to R61, R64 to R66: decoding the word of a well-formed instruction, any operands, gives
the instruction back. The numerals are notes/assumptions/21.md. -/
def Obligations.EncodedInstructionsDecodeBack : Prop :=
  ∀ i : Instr, i.wellFormed = true → decode (encode i) = .ok i

/-- The other direction: a word that decodes is the encoding of the instruction it decodes to, and
that instruction is well formed. So the decoder drops no bit of a supported word. -/
def Obligations.SupportedWordsAreEncodings : Prop :=
  ∀ (w : Word) (i : Instr), decode w = .ok i → i.wellFormed = true ∧ encode i = w

/-- R69: "a word w is instruction M when w & mask(M) = match(M); no two rows match the same word; a
word no row matches is unsupported". -/
def Obligations.DecoderAgreesWithOpcodeTable : Prop :=
  ∀ w : Word,
    (∀ r ∈ opcodeTable, matchesRow w r = true → ∃ i, decode w = .ok i ∧ mnemonicOf i = r.mnemonic) ∧
    ((∀ r ∈ opcodeTable, matchesRow w r = false) → ∃ e, decode w = .error e) ∧
    (∀ r ∈ opcodeTable, ∀ r' ∈ opcodeTable, matchesRow w r = true → matchesRow w r' = true → r = r')

/-- One word of each family, and three unsupported ones, from the worked examples of the rules. -/
def Obligations.SampleWordsDecode : Prop :=
  decode 0x123452B7 = .ok (.lui 5 0x12345000) ∧
  decode 0x00001317 = .ok (.auipc 6 0x1000) ∧
  decode 0xFFBFF0EF = .ok (.jal 1 (-6)) ∧
  decode 0x003280E7 = .ok (.jalr 1 5 3) ∧
  decode 0xFE009FE3 = .ok (.bne 1 0 (-2)) ∧
  decode 0xFFF42383 = .ok (.lw 7 8 (-1)) ∧
  decode 0xFE940EA3 = .ok (.sb 8 9 (-3)) ∧
  decode 0xFFF00293 = .ok (.addi 5 0 (-1)) ∧
  decode 0x407352B3 = .ok (.sra 5 6 7) ∧
  decode 0x00000000 = .error (.unsupportedOpcode 0) ∧
  decode 0x00331293 = .error (.unsupportedFunct3 0x13 1) ∧
  decode 0x027302B3 = .error (.unsupportedFunct7 0 1)

/-- R51: "Each is the unsigned value of the named bits". -/
def Obligations.FieldsAreTheNamedBits : Prop :=
  ∀ w : Word,
    (decodeFields w).opcode.toNat = w.toNat % 2 ^ 7 ∧
    (decodeFields w).rd.val = w.toNat / 2 ^ 7 % 2 ^ 5 ∧
    (decodeFields w).funct3.toNat = w.toNat / 2 ^ 12 % 2 ^ 3 ∧
    (decodeFields w).rs1.val = w.toNat / 2 ^ 15 % 2 ^ 5 ∧
    (decodeFields w).rs2.val = w.toNat / 2 ^ 20 % 2 ^ 5 ∧
    (decodeFields w).funct7.toNat = w.toNat / 2 ^ 25 % 2 ^ 7

/-- R56: mask to N bits; if bit N-1 is set, OR in the high-bits mask, else leave the masked value;
the signed reading is m - 2^N or m; `sext_N` is this function; and the source's three examples. -/
def Obligations.SignExtensionMasksThenExtends : Prop :=
  (∀ (v : Int) (n : Nat), 1 ≤ n → n ≤ 32 →
    if (v % 2 ^ n).toNat.testBit (n - 1) then
      signExtendInt v n = BitVec.ofInt 32 (v % 2 ^ n) ||| (0xFFFFFFFF#32 <<< n) ∧
        (signExtendInt v n).toInt = v % 2 ^ n - 2 ^ n
    else signExtendInt v n = BitVec.ofInt 32 (v % 2 ^ n) ∧ (signExtendInt v n).toInt = v % 2 ^ n) ∧
  (∀ (n : Nat) (b : BitVec n), sext b = signExtendInt b.toNat n) ∧
  (signExtendInt 0b0111 4).toInt = 7 ∧ (signExtendInt 0b1000 4).toInt = -8 ∧
  (signExtendInt 0b11111111 8).toInt = -1

/-- R57 to R61: where every bit of the five immediates comes from, their ranges and signs. -/
def Obligations.ImmediatesTakeTheirBits : Prop :=
  ∀ w : Word,
    (∀ i < 32,
      (decodeFields w).immI.getLsbD i = (if i < 11 then w.getLsbD (20 + i) else w.getLsbD 31) ∧
      (decodeFields w).immS.getLsbD i =
        (if i < 5 then w.getLsbD (7 + i) else if i < 11 then w.getLsbD (20 + i) else w.getLsbD 31) ∧
      (decodeFields w).immB.getLsbD i =
        (if i = 0 then false else if i < 5 then w.getLsbD (7 + i) else if i < 11 then w.getLsbD (20 + i)
          else if i = 11 then w.getLsbD 7 else w.getLsbD 31) ∧
      (decodeFields w).immU.getLsbD i = (if i < 12 then false else w.getLsbD i) ∧
      (decodeFields w).immJ.getLsbD i =
        (if i = 0 then false else if i < 11 then w.getLsbD (20 + i) else if i = 11 then w.getLsbD 20
          else if i < 20 then w.getLsbD i else w.getLsbD 31)) ∧
    (decodeFields w).immI = signExtendInt (w.extractLsb' 20 12).toNat 12 ∧
    (-2048 ≤ (decodeFields w).immI.toInt ∧ (decodeFields w).immI.toInt ≤ 2047) ∧
    (-2048 ≤ (decodeFields w).immS.toInt ∧ (decodeFields w).immS.toInt ≤ 2047) ∧
    (-4096 ≤ (decodeFields w).immB.toInt ∧ (decodeFields w).immB.toInt ≤ 4094 ∧
      (decodeFields w).immB.toInt % 2 = 0) ∧
    (-1048576 ≤ (decodeFields w).immJ.toInt ∧ (decodeFields w).immJ.toInt ≤ 1048574 ∧
      (decodeFields w).immJ.toInt % 2 = 0) ∧
    (decodeFields w).immU = w &&& 0xFFFFF000 ∧ sext (decodeFields w).immU = (decodeFields w).immU ∧
    (decodeFields w).immU.toNat = w.toNat / 2 ^ 12 * 4096 ∧
    ((decodeFields w).immU.toInt < 0 ↔ w.getLsbD 31 = true) ∧
    (-2 ^ 31 ≤ (decodeFields w).immU.toInt ∧ (decodeFields w).immU.toInt ≤ 2 ^ 31 - 4096 ∧
      (decodeFields w).immU.toInt % 4096 = 0)

/-! ## The Register File and the Data Memory -/

/-- R12: a write inside the bounds is read back, register 0 included (R13), and changes no other
register; outside them read and write fail with Invalid-Index. -/
def Obligations.RegisterAccessIsBoundsChecked : Prop :=
  ∀ (s : State) (i : Int) (v : Word),
    (0 ≤ i ∧ i < 32 → ∃ t, regWrite s i v = .ok t ∧ regRead t i = .ok v ∧
      (∀ j : Int, j ≠ i → regRead t j = regRead s j)) ∧
    (¬ (0 ≤ i ∧ i < 32) →
      regWrite s i v = .error (.invalidIndex i) ∧ regRead s i = .error (.invalidIndex i))

/-- R31 to R34: what the three readers take of the one slot, and that a word write replaces it. The
premise is the canonical form of the memory (StepKeepsInvariant). -/
def Obligations.AccessorsTouchOneSlot : Prop :=
  ∀ (s : State) (a : Int) (v : Word), s.dmem.wf Config.dmemReset Config.dmemWords = true →
    (0 ≤ a ∧ a < 1024 →
      readWord s a = .ok (s.slot a.toNat) ∧
      (∃ h, readHalf s a = .ok h ∧ h.toNat = (s.slot a.toNat).toNat % 2 ^ 16) ∧
      (∃ b, readByte s a = .ok b ∧ b.toNat = (s.slot a.toNat).toNat % 2 ^ 8) ∧
      (∃ t, writeWord s a v = .ok t ∧ readWord t a = .ok v ∧
        ∀ n : Nat, (n : Int) ≠ a → t.slot n = s.slot n)) ∧
    (¬ (0 ≤ a ∧ a < 1024) →
      readWord s a = .error (.invalidIndex a) ∧ readHalf s a = .error (.invalidIndex a) ∧
      readByte s a = .error (.invalidIndex a) ∧ writeWord s a v = .error (.invalidIndex a))

/-- R47: the accessors' round trips, and their failure outside 0..1023. The premise is the canonical
form of the memory, which every step keeps (StepKeepsInvariant). -/
def Obligations.DataMemoryRoundTrips : Prop :=
  ∀ (s : State) (a : Int) (v : Word), s.dmem.wf Config.dmemReset Config.dmemWords = true →
    (0 ≤ a ∧ a ≤ 1023 →
      (∃ t, writeWord s a v = .ok t ∧ readWord t a = .ok v) ∧
      (∃ t, writeHalf s a v = .ok t ∧ readHalf t a = .ok (v.extractLsb' 0 16)) ∧
      (∃ t, writeByte s a v = .ok t ∧ readByte t a = .ok (v.extractLsb' 0 8))) ∧
    (¬ (0 ≤ a ∧ a ≤ 1023) →
      readWord s a = .error (.invalidIndex a) ∧ readHalf s a = .error (.invalidIndex a) ∧
      readByte s a = .error (.invalidIndex a) ∧ writeWord s a v = .error (.invalidIndex a) ∧
      writeHalf s a v = .error (.invalidIndex a) ∧ writeByte s a v = .error (.invalidIndex a))

/-- R37: the bounds check is on the index alone and the same for the three widths, and whether an
instruction's address sum is formed wrapping or exactly makes no difference. -/
def Obligations.BoundsCheckIsTheSameForEveryWidth : Prop :=
  ∀ (s : State) (a : Int) (v : Word),
    (0 ≤ a ∧ a < 1024 →
      (∃ w, readWord s a = .ok w) ∧ (∃ h, readHalf s a = .ok h) ∧ (∃ b, readByte s a = .ok b) ∧
      (∃ t, writeWord s a v = .ok t) ∧ (∃ t, writeHalf s a v = .ok t) ∧
      (∃ t, writeByte s a v = .ok t)) ∧
    (¬ (0 ≤ a ∧ a < 1024) →
      readWord s a = .error (.invalidIndex a) ∧ readHalf s a = .error (.invalidIndex a) ∧
      readByte s a = .error (.invalidIndex a) ∧ writeWord s a v = .error (.invalidIndex a) ∧
      writeHalf s a v = .error (.invalidIndex a) ∧ writeByte s a v = .error (.invalidIndex a)) ∧
    (∀ (base : RegIdx) (imm : Word),
      effectiveAddress s base imm = (s.x base + imm).toInt ∧
      (-2048 ≤ imm.toInt ∧ imm.toInt ≤ 2047 →
        ((0 ≤ effectiveAddress s base imm ∧ effectiveAddress s base imm < 1024) ↔
          (0 ≤ (s.x base).toInt + imm.toInt ∧ (s.x base).toInt + imm.toInt < 1024))))

/-- R34 to R36: a write replaces the low 32, 16 or 8 bits of ONE slot. That the bits above are kept
is the spec's decision D8 (notes/assumptions/8.md). -/
def Obligations.WritesReplaceOnlyTheLowBitsOfOneSlot : Prop :=
  ∀ (s : State) (a : Int) (v : Word), s.dmem.wf Config.dmemReset Config.dmemWords = true → InDataMemory a →
    (∃ t, writeWord s a v = .ok t ∧ t.slot a.toNat = v ∧
      (∀ n : Nat, (n : Int) ≠ a → t.slot n = s.slot n) ∧ t.regs = s.regs ∧ t.pc = s.pc) ∧
    (∃ t, writeHalf s a v = .ok t ∧
      (∀ i < 32, (t.slot a.toNat).getLsbD i =
        if i < 16 then v.getLsbD i else (s.slot a.toNat).getLsbD i) ∧
      (∀ n : Nat, (n : Int) ≠ a → t.slot n = s.slot n) ∧ t.regs = s.regs ∧ t.pc = s.pc) ∧
    (∃ t, writeByte s a v = .ok t ∧
      (∀ i < 32, (t.slot a.toNat).getLsbD i =
        if i < 8 then v.getLsbD i else (s.slot a.toNat).getLsbD i) ∧
      (∀ n : Nat, (n : Int) ≠ a → t.slot n = s.slot n) ∧ t.regs = s.regs ∧ t.pc = s.pc)

/-! ## The step -/

/-- R80, R82: with the pc in range and a supported word there, the step is that instruction; nothing
is added around it. -/
def Obligations.StepExecutesTheDecodedInstruction : Prop :=
  ∀ (s : State) (i : Instr), 0 ≤ s.pc.toInt → s.pc.toInt ≤ 1023 →
    decode (s.imem.read Config.imemFill s.pc.toNat) = .ok i → step s = exec i s

/-- R80, R181: with the pc outside 0..1023 a step reports AlreadyFinished and changes nothing, however
often it is repeated. That the outcome is a next state is the model's choice
(notes/assumptions/25.md). -/
def Obligations.HaltedMachineNeverMoves : Prop :=
  ∀ s : State, ¬ (0 ≤ s.pc.toInt ∧ s.pc.toInt ≤ 1023) →
    stepOutcome s = .alreadyFinished ∧ ∀ k, Reaches k s s

/-- R172: an unsupported word changes no register and no slot, advances the pc by 1 and is reported
once. The report is kept in the model's own field (notes/assumptions/17.md). -/
def Obligations.UnsupportedWordIsReportedAndSkipped : Prop :=
  ∀ (s : State) (e : DecodeError), pcInRange s.pc = true → decode (fetch s) = .error e →
    stepOutcome s = .unsupported (fetch s) ∧
    ∃ t, step s = .next t ∧ (∀ r, t.x r = s.x r) ∧ (∀ n, t.slot n = s.slot n) ∧ t.pc = s.pc + 1 ∧
      t.imem = s.imem ∧ t.breakpoints = s.breakpoints ∧ t.runState = s.runState ∧
      t.reports = ⟨s.pc, fetch s⟩ :: s.reports

/-- R171, R175: a step faults exactly when it fetches a load or a store whose address is outside
0..1023, and then with that address (the pc staying there is D18: notes/assumptions/16.md). -/
def Obligations.StepFaultsExactlyOnABadAddress : Prop :=
  ∀ (s : State) (f : Fault), step s = .fault f ↔
    pcInRange s.pc = true ∧ ∃ i a, decode (fetch s) = .ok i ∧ accessAddressOf s i = some a ∧
      ¬ InDataMemory a ∧ f = .invalidIndex a

/-- R81: no step ends in anything but the spec's four outcomes: the model refuses nothing. -/
def Obligations.StepNeverRefuses : Prop :=
  ∀ (s : State) (r : Refusal), step s ≠ .refused r ∧ stepOutcome s ≠ .refusedByModel r

/-- R81: the reported outcome says what the step did: Ok a supported instruction completed,
Unsupported the word that was skipped, Fault(InvalidIndex) the fault and AlreadyFinished no change. -/
def Obligations.StepOutcomeAgreesWithStep : Prop :=
  ∀ s : State,
    (stepOutcome s = .ok ↔ ∃ i t, pcInRange s.pc = true ∧ decode (fetch s) = .ok i ∧
      exec i s = .next t ∧ step s = .next t) ∧
    (∀ w, stepOutcome s = .unsupported w ↔ pcInRange s.pc = true ∧ w = fetch s ∧
      ∃ e, decode (fetch s) = .error e) ∧
    (∀ a, stepOutcome s = .invalidIndex a ↔ step s = .fault (.invalidIndex a)) ∧
    (stepOutcome s = .alreadyFinished ↔ Halted s) ∧
    (Halted s → step s = .next s)

/-- R14, R16, R82: every instruction whose address (if it forms one) is inside the Data Memory
completes, writes at most its destination register or its slot, never both, and goes to pc + 1
unless it is a control transfer. The premise is the canonical form of the memory. -/
def Obligations.EveryInstructionWritesOnlyItsTargets : Prop :=
  ∀ (i : Instr) (s : State), s.dmem.wf Config.dmemReset Config.dmemWords = true →
    (∀ a, accessAddressOf s i = some a → InDataMemory a) →
    (destOf i = none ∨ storeAddressOf s i = none) ∧
    ∃ t, exec i s = .next t ∧ Frame (destOf i) (storeAddressOf s i) s t ∧
      (isTransfer i = false → t.pc = s.pc + 1)

/-! ## The instructions -/

/-- R90, R91: LUI and AUIPC, and what AUIPC's sum is for a pc in range. -/
def Obligations.UpperImmediateResults : Prop :=
  ∀ (s : State) (rd : RegIdx) (immU : Word),
    RegisterResult (exec (.lui rd immU) s) s rd (fun v => v = immU) ∧
    RegisterResult (exec (.auipc rd immU) s) s rd (fun v =>
      v = s.pc + immU ∧
      (pcInRange s.pc = true → fitsImmU immU = true →
        v.toNat % 4096 = s.pc.toNat ∧ v.toNat / 4096 = immU.toNat / 4096))

/-- R95: JAL. That nothing is added after the transfer is the spec's resolution of C1, its decision
D2 (notes/assumptions/2.md). -/
def Obligations.JalLinksAndJumps : Prop :=
  ∀ (s : State) (rd : RegIdx) (immJ : Word),
    JumpResult (exec (.jal rd immJ) s) s rd (fun pc => pc = s.pc + immJ)

/-- R96: JALR, from the old x[rs1], bit 0 of the target cleared. -/
def Obligations.JalrLinksAndJumps : Prop :=
  ∀ (s : State) (rd rs1 : RegIdx) (immI : Word),
    JumpResult (exec (.jalr rd rs1 immI) s) s rd (fun pc =>
      pc.getLsbD 0 = false ∧
      ∀ i, 1 ≤ i → i < 32 → pc.getLsbD i = (s.x rs1 + immI).getLsbD i)

/-- R87, R100 to R106: the six branches. That nothing is added after a taken branch is the spec's
decision D2 (notes/assumptions/2.md). -/
def Obligations.BranchesGoByTheirComparison : Prop :=
  ∀ (s : State) (rs1 rs2 : RegIdx) (immB : Word),
    BranchResult (exec (.beq rs1 rs2 immB) s) s immB (s.x rs1 = s.x rs2) ∧
    BranchResult (exec (.bne rs1 rs2 immB) s) s immB (s.x rs1 ≠ s.x rs2) ∧
    BranchResult (exec (.blt rs1 rs2 immB) s) s immB ((s.x rs1).toInt < (s.x rs2).toInt) ∧
    BranchResult (exec (.bge rs1 rs2 immB) s) s immB ((s.x rs1).toInt ≥ (s.x rs2).toInt) ∧
    BranchResult (exec (.bltu rs1 rs2 immB) s) s immB ((s.x rs1).toNat < (s.x rs2).toNat) ∧
    BranchResult (exec (.bgeu rs1 rs2 immB) s) s immB ((s.x rs1).toNat ≥ (s.x rs2).toNat)

/-- R110 to R115: the five loads at an address inside the Data Memory. -/
def Obligations.LoadsDeliverTheirBits : Prop :=
  ∀ (s : State) (rd rs1 : RegIdx) (immI : Word), InDataMemory (effectiveAddress s rs1 immI) →
    RegisterResult (exec (.lb rd rs1 immI) s) s rd (fun v => ∀ i < 32, v.getLsbD i =
      (s.slot (effectiveAddress s rs1 immI).toNat).getLsbD (if i < 8 then i else 7)) ∧
    RegisterResult (exec (.lh rd rs1 immI) s) s rd (fun v => ∀ i < 32, v.getLsbD i =
      (s.slot (effectiveAddress s rs1 immI).toNat).getLsbD (if i < 16 then i else 15)) ∧
    RegisterResult (exec (.lw rd rs1 immI) s) s rd (fun v =>
      v = s.slot (effectiveAddress s rs1 immI).toNat) ∧
    RegisterResult (exec (.lbu rd rs1 immI) s) s rd (fun v =>
      v.toNat = (s.slot (effectiveAddress s rs1 immI).toNat).toNat % 2 ^ 8) ∧
    RegisterResult (exec (.lhu rd rs1 immI) s) s rd (fun v =>
      v.toNat = (s.slot (effectiveAddress s rs1 immI).toNat).toNat % 2 ^ 16)

/-- R120 to R123: the three stores at an address inside the Data Memory. That SB and SH keep the
bits above is the spec's decision D8 (notes/assumptions/8.md). -/
def Obligations.StoresReplaceTheirBits : Prop :=
  ∀ (s : State) (rs1 rs2 : RegIdx) (immS : Word), s.dmem.wf Config.dmemReset Config.dmemWords = true →
    InDataMemory (effectiveAddress s rs1 immS) →
    StoreResult (exec (.sb rs1 rs2 immS) s) s (effectiveAddress s rs1 immS) (fun v =>
      ∀ i < 32, v.getLsbD i = if i < 8 then (s.x rs2).getLsbD i
        else (s.slot (effectiveAddress s rs1 immS).toNat).getLsbD i) ∧
    StoreResult (exec (.sh rs1 rs2 immS) s) s (effectiveAddress s rs1 immS) (fun v =>
      ∀ i < 32, v.getLsbD i = if i < 16 then (s.x rs2).getLsbD i
        else (s.slot (effectiveAddress s rs1 immS).toNat).getLsbD i) ∧
    StoreResult (exec (.sw rs1 rs2 immS) s) s (effectiveAddress s rs1 immS) (fun v => v = s.x rs2)

/-- R110, R120, R171: the eight loads and stores raise Invalid-Index at an address outside the Data
Memory, and the step then has no next state (D18: notes/assumptions/16.md). -/
def Obligations.LoadsAndStoresFaultOutside : Prop :=
  ∀ (i : Instr) (s : State) (a : Int), accessAddressOf s i = some a → ¬ InDataMemory a →
    exec i s = .fault (.invalidIndex a)

/-- R125 to R131: the six register-immediate instructions. The wrap of ADDI is the spec's decision
D12, SLTIU's sign-extended immediate its D22 (notes/assumptions/12.md, 20.md). -/
def Obligations.AluImmediateResults : Prop :=
  ∀ (s : State) (rd rs1 : RegIdx) (immI : Word),
    RegisterResult (exec (.addi rd rs1 immI) s) s rd (fun v =>
      v.toInt = ((s.x rs1).toInt + immI.toInt).bmod (2 ^ 32)) ∧
    RegisterResult (exec (.slti rd rs1 immI) s) s rd (fun v =>
      v = if (s.x rs1).toInt < immI.toInt then 1 else 0) ∧
    RegisterResult (exec (.sltiu rd rs1 immI) s) s rd (fun v =>
      v = if (s.x rs1).toNat < immI.toNat then 1 else 0) ∧
    RegisterResult (exec (.xori rd rs1 immI) s) s rd (fun v =>
      ∀ i < 32, v.getLsbD i = ((s.x rs1).getLsbD i ^^ immI.getLsbD i)) ∧
    RegisterResult (exec (.ori rd rs1 immI) s) s rd (fun v =>
      ∀ i < 32, v.getLsbD i = ((s.x rs1).getLsbD i || immI.getLsbD i)) ∧
    RegisterResult (exec (.andi rd rs1 immI) s) s rd (fun v =>
      ∀ i < 32, v.getLsbD i = ((s.x rs1).getLsbD i && immI.getLsbD i))

/-- R135 to R137, R139 to R141, R144, R145: the register-register instructions but the shifts. The
wrap of ADD and SUB is the spec's decision D12 (notes/assumptions/12.md). -/
def Obligations.AluRegisterResults : Prop :=
  ∀ (s : State) (rd rs1 rs2 : RegIdx),
    RegisterResult (exec (.add rd rs1 rs2) s) s rd (fun v =>
      v.toInt = ((s.x rs1).toInt + (s.x rs2).toInt).bmod (2 ^ 32)) ∧
    RegisterResult (exec (.sub rd rs1 rs2) s) s rd (fun v =>
      v.toInt = ((s.x rs1).toInt - (s.x rs2).toInt).bmod (2 ^ 32)) ∧
    RegisterResult (exec (.slt rd rs1 rs2) s) s rd (fun v =>
      v = if (s.x rs1).toInt < (s.x rs2).toInt then 1 else 0) ∧
    RegisterResult (exec (.sltu rd rs1 rs2) s) s rd (fun v =>
      v = if (s.x rs1).toNat < (s.x rs2).toNat then 1 else 0) ∧
    RegisterResult (exec (.xor rd rs1 rs2) s) s rd (fun v =>
      ∀ i < 32, v.getLsbD i = ((s.x rs1).getLsbD i ^^ (s.x rs2).getLsbD i)) ∧
    RegisterResult (exec (.or rd rs1 rs2) s) s rd (fun v =>
      ∀ i < 32, v.getLsbD i = ((s.x rs1).getLsbD i || (s.x rs2).getLsbD i)) ∧
    RegisterResult (exec (.and rd rs1 rs2) s) s rd (fun v =>
      ∀ i < 32, v.getLsbD i = ((s.x rs1).getLsbD i && (s.x rs2).getLsbD i))

/-- R88, R138, R142, R143: the shifts, by the low 5 bits n of x[rs2]; SRA is also the floor of
signed(a) / 2^n. -/
def Obligations.ShiftResults : Prop :=
  ∀ (s : State) (rd rs1 rs2 : RegIdx) (n : Nat), n = (s.x rs2).toNat % 32 →
    RegisterResult (exec (.sll rd rs1 rs2) s) s rd (fun v =>
      ∀ i < 32, v.getLsbD i = if n ≤ i then (s.x rs1).getLsbD (i - n) else false) ∧
    RegisterResult (exec (.srl rd rs1 rs2) s) s rd (fun v =>
      ∀ i < 32, v.getLsbD i = if i + n ≤ 31 then (s.x rs1).getLsbD (i + n) else false) ∧
    RegisterResult (exec (.sra rd rs1 rs2) s) s rd (fun v =>
      (∀ i < 32, v.getLsbD i = if i + n ≤ 31 then (s.x rs1).getLsbD (i + n)
        else (s.x rs1).getLsbD 31) ∧
      v.toInt = (s.x rs1).toInt / 2 ^ n)

/-! ## The Session Controller -/

/-- R182: `Run()` as equations: out of range it reports completion; at a breakpoint it stops BEFORE
executing; else it steps and goes on, or is aborted (Idle after the abort is D18:
notes/assumptions/16.md; the fuel is the model's: 24.md). -/
def Obligations.RunStopsBeforeABreakpoint : Prop :=
  ∀ (fuel : Nat) (s : State),
    (Halted s → command (fuel + 1) .run s = .returned (s.setRunState .halted) .completion) ∧
    (¬ Halted s → s.pc ∈ s.breakpoints → command (fuel + 1) .run s =
      .returned (s.setRunState .stoppedAtBreakpoint) (.breakpointHit s.pc)) ∧
    (¬ Halted s → s.pc ∉ s.breakpoints →
      (∀ t, step s = .next t → command (fuel + 1) .run s = command fuel .run t) ∧
      (∀ a, step s = .fault (.invalidIndex a) →
        command (fuel + 1) .run s = .returned (s.setRunState .idle) (.invalidIndex a)))

/-- R183: `StepCmd()`: one instruction, the Breakpoint Set consulted neither before nor after (Idle
afterwards is D17, after an abort D18: notes/assumptions/16.md). -/
def Obligations.StepCommandIgnoresBreakpoints : Prop :=
  ∀ (fuel : Nat) (s : State),
    (Halted s →
      command (fuel + 1) .stepOne s = .returned (s.setRunState .halted) .alreadyFinished) ∧
    (¬ Halted s →
      (∀ t, step s = .next t → command (fuel + 1) .stepOne s =
        .returned (t.setRunState (if pcInRange t.pc then .idle else .halted)) .stepped) ∧
      (∀ a, step s = .fault (.invalidIndex a) →
        command (fuel + 1) .stepOne s = .returned (s.setRunState .idle) (.invalidIndex a)))

/-- R184: `Continue()`: it executes the instruction at the pc even at a breakpoint, then checks the
range, then the breakpoints, of which the one at 1023 does not stop it (D15:
notes/assumptions/15.md; Idle after an abort is D18: 16.md). -/
def Obligations.ContinueChecksAfterTheInstruction : Prop :=
  ∀ (fuel : Nat) (s : State),
    (Halted s → command (fuel + 1) .resume s = .returned (s.setRunState .halted) .completion) ∧
    (¬ Halted s →
      (∀ t, step s = .next t →
        (Halted t → command (fuel + 1) .resume s = .returned (t.setRunState .halted) .completion) ∧
        (¬ Halted t → t.pc ∈ t.breakpoints → t.pc ≠ 1023 → command (fuel + 1) .resume s =
          .returned (t.setRunState .stoppedAtBreakpoint) (.breakpointHit t.pc)) ∧
        (¬ Halted t → t.pc ∉ t.breakpoints ∨ t.pc = 1023 →
          command (fuel + 1) .resume s = command fuel .resume t)) ∧
      (∀ a, step s = .fault (.invalidIndex a) →
        command (fuel + 1) .resume s = .returned (s.setRunState .idle) (.invalidIndex a)))

/-- A command that returns returns the same whatever more fuel it is given: the fuel is no part of
the result (notes/assumptions/24.md). -/
def Obligations.MoreFuelKeepsTheResult : Prop :=
  ∀ (m n : Nat) (c : Command) (s t : State) (r : Reply), m ≤ n →
    command m c s = .returned t r → command n c s = .returned t r

/-- R171, R185: an aborted command leaves the pc at the faulting instruction and the Run State Idle
(D18: notes/assumptions/16.md), and "re-issuing the command re-executes the same instruction on the
same state and faults again". -/
def Obligations.AbortedCommandFaultsAgain : Prop :=
  ∀ (fuel : Nat) (c : Command) (s t : State) (a : Int), c ∈ [Command.run, .stepOne, .resume] →
    command fuel c s = .returned t (.invalidIndex a) →
    t.runState = .idle ∧ ¬ Halted t ∧ step t = .fault (.invalidIndex a) ∧
      ∀ fuel', command (fuel' + 1) c t = .returned t (.invalidIndex a)

/-- R181: once Halted, no command changes a register, a slot, the pc or the Instruction Store. The
Breakpoint Set and the Run State are the Session Controller's and may change. -/
def Obligations.HaltedSessionKeepsProgramState : Prop :=
  ∀ (fuel : Nat) (c : Command) (s t : State) (r : Reply), Halted s →
    command fuel c s = .returned t r →
    t.regs = s.regs ∧ t.dmem = s.dmem ∧ t.imem = s.imem ∧ t.pc = s.pc

/-- R186: a duplicate, or a sixth, breakpoint is rejected with the state unchanged; any other pc
value joins the set (values outside 0..1023 too: D19, notes/assumptions/18.md), and nothing else
changes. -/
def Obligations.AddBreakpointRejectsSixthAndDuplicate : Prop :=
  ∀ (fuel : Nat) (s : State) (p : Word),
    (p ∈ s.breakpoints ∨ 5 ≤ s.breakpoints.length →
      command fuel (.setBreakpoint p) s = .returned s .breakpointRejected) ∧
    (p ∉ s.breakpoints → s.breakpoints.length < 5 →
      ∃ t, command fuel (.setBreakpoint p) s = .returned t .breakpointAdded ∧
        (∀ q, q ∈ t.breakpoints ↔ q = p ∨ q ∈ s.breakpoints) ∧
        t.breakpoints.length = s.breakpoints.length + 1 ∧
        { t with breakpoints := s.breakpoints } = s)

/-- R187, R190, and R191's reads: the inspection commands are pure reads in any state; a bad index
gives Invalid-Index, unparseable text Malformed-Command, with no state change. -/
def Obligations.InspectionCommandsArePure : Prop :=
  ∀ (fuel : Nat) (s : State),
    command fuel .readPc s = .returned s (.value s.pc.toInt) ∧
    (∀ i : RegIdx, command fuel (.readReg i.val) s = .returned s (.value (s.x i).toInt)) ∧
    (∀ n : Int, ¬ (0 ≤ n ∧ n < 32) →
      command fuel (.readReg n) s = .returned s (.invalidIndex n)) ∧
    (∀ a : Int, 0 ≤ a ∧ a < 1024 →
      command fuel (.readSlot a) s = .returned s (.value (s.slot a.toNat).toInt)) ∧
    (∀ a : Int, ¬ (0 ≤ a ∧ a < 1024) →
      command fuel (.readSlot a) s = .returned s (.invalidIndex a)) ∧
    command fuel .malformed s = .returned s .malformedCommand

/-- R23, R24: no instruction reads or writes the Breakpoint Set or the Run State, and no step reads
the reports (the model's own field, notes/assumptions/17.md): two states that agree on what the
engine works on take the same step. -/
def Obligations.EngineIgnoresTheSession : Prop :=
  ∀ s₁ s₂ : State, SameEngineState s₁ s₂ →
    stepOutcome s₁ = stepOutcome s₂ ∧
    (∀ t₁, step s₁ = .next t₁ → ∃ t₂, step s₂ = .next t₂ ∧ SameEngineState t₁ t₂ ∧
      t₂.breakpoints = s₂.breakpoints ∧ t₂.runState = s₂.runState) ∧
    (∀ f, step s₁ = .fault f → step s₂ = .fault f)

/-- R21, R45: neither any number of steps nor any command changes the Instruction Store, so "no
store instruction can change what a later fetch returns". -/
def Obligations.InstructionStoreNeverChanges : Prop :=
  (∀ (k : Nat) (s t : State), Reaches k s t → t.imem = s.imem) ∧
  (∀ (fuel : Nat) (c : Command) (s t : State) (r : Reply),
    command fuel c s = .returned t r → t.imem = s.imem)

/-! ## The Disassembler and the load -/

/-- R150, R152: a word is rendered with the mnemonic of the instruction the engine would execute, and
as the unsupported marker exactly when the engine would report Unsupported. -/
def Obligations.DisassemblerMirrorsTheEngine : Prop :=
  (∀ (w pc : Word) (m : String),
    (∃ ops, disassemble (decodeFields w) pc = .instruction m ops) ↔
      ∃ i, decode w = .ok i ∧ mnemonicOf i = m) ∧
  (∀ s : State, pcInRange s.pc = true →
    (disassemble (decodeFields (fetch s)) s.pc = .unsupported ↔
      stepOutcome s = .unsupported (fetch s)))

/-- R155, R157: the target printed for a JAL, or for a branch that is taken, is the pc it goes to
(C1: "targets equal actual next PC"; D2: notes/assumptions/2.md). -/
def Obligations.DisassembledTargetIsTheNextPc : Prop :=
  (∀ (s t : State) (rd : RegIdx) (immJ : Word), exec (.jal rd immJ) s = .next t →
    operandsOf s.pc (.jal rd immJ) = [.reg rd, .target t.pc.toInt]) ∧
  (∀ (s t : State) (rs1 rs2 : RegIdx) (immB : Word) (i : Instr),
    i ∈ [Instr.beq rs1 rs2 immB, .bne rs1 rs2 immB, .blt rs1 rs2 immB, .bge rs1 rs2 immB,
      .bltu rs1 rs2 immB, .bgeu rs1 rs2 immB] →
    exec i s = .next t → t.pc ≠ s.pc + 1 →
    operandsOf s.pc i = [.reg rs1, .reg rs2, .target t.pc.toInt])

/-- R201 to R203: after the load, IMem[k] is word k of the program, every other word is 0, and the
rest is the reset state; a program of more than 1024 words is not admitted (D6:
notes/assumptions/6.md). -/
def Obligations.LoadedProgramIsInTheStore : Prop :=
  ∀ program : List Word,
    (program.length ≤ 1024 → ∃ t, startSession program = some t ∧
      (∀ n, t.imem.read Config.imemFill n = program.getD n 0) ∧ t.imem.wf Config.imemFill Config.imemWords = true ∧
      { t with imem := [] } = State.reset) ∧
    (1024 < program.length → startSession program = none)

/-- The model's own placing of a word (notes/assumptions/26.md): the very next step runs it, and
nothing else changes but an out-of-range pc. -/
def Obligations.PlacedWordRunsNext : Prop :=
  ∀ (s : State) (w : Nat) (i : Instr), s.imem.wf Config.imemFill Config.imemWords = true →
    decodeTableWord 32 w = some i →
    step (s.withFetchWord 32 w) = exec i (s.withFetchWord 32 w) ∧
    (pcInRange s.pc = true → { s.withFetchWord 32 w with imem := s.imem } = s) ∧
    (pcInRange s.pc = false → { s.withFetchWord 32 w with imem := s.imem, pc := s.pc } = s ∧
      (s.withFetchWord 32 w).pc = 0)
end

