-- ==== Sys2Proof/Laws/Config.lean ====
section
/-! SUPPORT. Where the parameters of Config stand in the model: the widths that the types have, and
the operations with the parameter's value put in. -/

namespace Sys2Proof.Machine

/-! ## The widths -/

/-- A word, and so a register, a slot and every value of an instruction, has XLEN bits. -/
theorem word_width : Word = BitVec Config.xlen := rfl

/-- An instruction has ILEN bits: a fetch delivers as many. -/
theorem fetch_width : (fetch : State → BitVec Config.ilen) = fetch := rfl

/-- The pc has PC_WIDTH bits. -/
theorem pc_width : (State.pc : State → BitVec Config.pcWidth) = State.pc := rfl

/-! ## Units and scales -/

/-- PC_UNIT is one word: the pc is the index. -/
@[simp] theorem fetchIndex_eq (pc : Word) : fetchIndex pc = pc.toNat := Nat.mul_one _

/-- IMM_SCALE is 1: an offset is added as it stands. -/
@[simp] theorem scaleImm_eq (imm : Word) : scaleImm imm = imm := BitVec.mul_one imm

@[simp] theorem relativeTarget_eq (pc imm : Word) : relativeTarget pc imm = pc + imm := by
  simp [relativeTarget]

theorem fetch_eq (s : State) : fetch s = s.imem.read Config.imemFill s.pc.toNat := by
  simp [fetch]

/-- TRANSFER_POST_INCREMENT is 0 and PC_STEP is 1. -/
theorem finishBranch_eq (s : State) (cond : Bool) (immB : Word) :
    finishBranch s cond immB = .next (s.setPc (if cond then s.pc + immB else s.pc + 1)) := by
  cases cond <;> simp [finishBranch, State.advance]

theorem effectiveAddress_eq (s : State) (base : RegIdx) (offset : Word) :
    effectiveAddress s base offset = (s.x base + offset).toInt := by
  simp [effectiveAddress]

theorem jalTarget_eq (s : State) (immJ : Word) : jalTarget s immJ = s.pc + immJ := by
  simp [jalTarget]

theorem jalrTarget_eq (s : State) (rs1 : RegIdx) (immI : Word) :
    jalrTarget s rs1 immI = (s.x rs1 + immI) &&& 0xFFFFFFFE := by
  simp [jalrTarget]

end Sys2Proof.Machine
end

