-- ==== Sys2Proof/Laws/Decode.lean ====
section
/-! SUPPORT. The laws of the Decoder and the encoder: each field of an encoded word, each immediate
there and back, and the opcode table's masks as field comparisons. -/

namespace Sys2Proof

/-! ## The fields of an encoded word -/

@[simp] theorem encodeR_opcode (f7 : BitVec 7) (f3 : BitVec 3) (op : BitVec 7) (rd rs1 rs2 : RegIdx) :
    (encodeR f7 f3 op rd rs1 rs2).extractLsb' 0 7 = op := by
  unfold encodeR
  apply BitVec.eq_of_getLsbD_eq
  intro i hi
  simp only [BitVec.getLsbD_extractLsb', BitVec.getLsbD_append]
  interval_cases i <;> simp

@[simp] theorem encodeR_rd (f7 : BitVec 7) (f3 : BitVec 3) (op : BitVec 7) (rd rs1 rs2 : RegIdx) :
    (encodeR f7 f3 op rd rs1 rs2).extractLsb' 7 5 = BitVec.ofFin (w := 5) rd := by
  unfold encodeR
  apply BitVec.eq_of_getLsbD_eq
  intro i hi
  simp only [BitVec.getLsbD_extractLsb', BitVec.getLsbD_append]
  interval_cases i <;> simp

@[simp] theorem encodeR_funct3 (f7 : BitVec 7) (f3 : BitVec 3) (op : BitVec 7) (rd rs1 rs2 : RegIdx) :
    (encodeR f7 f3 op rd rs1 rs2).extractLsb' 12 3 = f3 := by
  unfold encodeR
  apply BitVec.eq_of_getLsbD_eq
  intro i hi
  simp only [BitVec.getLsbD_extractLsb', BitVec.getLsbD_append]
  interval_cases i <;> simp

@[simp] theorem encodeR_rs1 (f7 : BitVec 7) (f3 : BitVec 3) (op : BitVec 7) (rd rs1 rs2 : RegIdx) :
    (encodeR f7 f3 op rd rs1 rs2).extractLsb' 15 5 = BitVec.ofFin (w := 5) rs1 := by
  unfold encodeR
  apply BitVec.eq_of_getLsbD_eq
  intro i hi
  simp only [BitVec.getLsbD_extractLsb', BitVec.getLsbD_append]
  interval_cases i <;> simp

@[simp] theorem encodeR_rs2 (f7 : BitVec 7) (f3 : BitVec 3) (op : BitVec 7) (rd rs1 rs2 : RegIdx) :
    (encodeR f7 f3 op rd rs1 rs2).extractLsb' 20 5 = BitVec.ofFin (w := 5) rs2 := by
  unfold encodeR
  apply BitVec.eq_of_getLsbD_eq
  intro i hi
  simp only [BitVec.getLsbD_extractLsb', BitVec.getLsbD_append]
  interval_cases i <;> simp

@[simp] theorem encodeR_funct7 (f7 : BitVec 7) (f3 : BitVec 3) (op : BitVec 7) (rd rs1 rs2 : RegIdx) :
    (encodeR f7 f3 op rd rs1 rs2).extractLsb' 25 7 = f7 := by
  unfold encodeR
  apply BitVec.eq_of_getLsbD_eq
  intro i hi
  simp only [BitVec.getLsbD_extractLsb', BitVec.getLsbD_append]
  interval_cases i <;> simp

@[simp] theorem encodeI_opcode (f3 : BitVec 3) (op : BitVec 7) (rd rs1 : RegIdx) (imm : Word) :
    (encodeI f3 op rd rs1 imm).extractLsb' 0 7 = op := by
  unfold encodeI
  apply BitVec.eq_of_getLsbD_eq
  intro i hi
  simp only [BitVec.getLsbD_extractLsb', BitVec.getLsbD_append]
  interval_cases i <;> simp

@[simp] theorem encodeI_rd (f3 : BitVec 3) (op : BitVec 7) (rd rs1 : RegIdx) (imm : Word) :
    (encodeI f3 op rd rs1 imm).extractLsb' 7 5 = BitVec.ofFin (w := 5) rd := by
  unfold encodeI
  apply BitVec.eq_of_getLsbD_eq
  intro i hi
  simp only [BitVec.getLsbD_extractLsb', BitVec.getLsbD_append]
  interval_cases i <;> simp

@[simp] theorem encodeI_funct3 (f3 : BitVec 3) (op : BitVec 7) (rd rs1 : RegIdx) (imm : Word) :
    (encodeI f3 op rd rs1 imm).extractLsb' 12 3 = f3 := by
  unfold encodeI
  apply BitVec.eq_of_getLsbD_eq
  intro i hi
  simp only [BitVec.getLsbD_extractLsb', BitVec.getLsbD_append]
  interval_cases i <;> simp

@[simp] theorem encodeI_rs1 (f3 : BitVec 3) (op : BitVec 7) (rd rs1 : RegIdx) (imm : Word) :
    (encodeI f3 op rd rs1 imm).extractLsb' 15 5 = BitVec.ofFin (w := 5) rs1 := by
  unfold encodeI
  apply BitVec.eq_of_getLsbD_eq
  intro i hi
  simp only [BitVec.getLsbD_extractLsb', BitVec.getLsbD_append]
  interval_cases i <;> simp

@[simp] theorem encodeS_opcode (f3 : BitVec 3) (op : BitVec 7) (rs1 rs2 : RegIdx) (imm : Word) :
    (encodeS f3 op rs1 rs2 imm).extractLsb' 0 7 = op := by
  unfold encodeS
  apply BitVec.eq_of_getLsbD_eq
  intro i hi
  simp only [BitVec.getLsbD_extractLsb', BitVec.getLsbD_append]
  interval_cases i <;> simp

@[simp] theorem encodeS_funct3 (f3 : BitVec 3) (op : BitVec 7) (rs1 rs2 : RegIdx) (imm : Word) :
    (encodeS f3 op rs1 rs2 imm).extractLsb' 12 3 = f3 := by
  unfold encodeS
  apply BitVec.eq_of_getLsbD_eq
  intro i hi
  simp only [BitVec.getLsbD_extractLsb', BitVec.getLsbD_append]
  interval_cases i <;> simp

@[simp] theorem encodeS_rs1 (f3 : BitVec 3) (op : BitVec 7) (rs1 rs2 : RegIdx) (imm : Word) :
    (encodeS f3 op rs1 rs2 imm).extractLsb' 15 5 = BitVec.ofFin (w := 5) rs1 := by
  unfold encodeS
  apply BitVec.eq_of_getLsbD_eq
  intro i hi
  simp only [BitVec.getLsbD_extractLsb', BitVec.getLsbD_append]
  interval_cases i <;> simp

@[simp] theorem encodeS_rs2 (f3 : BitVec 3) (op : BitVec 7) (rs1 rs2 : RegIdx) (imm : Word) :
    (encodeS f3 op rs1 rs2 imm).extractLsb' 20 5 = BitVec.ofFin (w := 5) rs2 := by
  unfold encodeS
  apply BitVec.eq_of_getLsbD_eq
  intro i hi
  simp only [BitVec.getLsbD_extractLsb', BitVec.getLsbD_append]
  interval_cases i <;> simp

@[simp] theorem encodeB_opcode (f3 : BitVec 3) (op : BitVec 7) (rs1 rs2 : RegIdx) (imm : Word) :
    (encodeB f3 op rs1 rs2 imm).extractLsb' 0 7 = op := by
  unfold encodeB
  apply BitVec.eq_of_getLsbD_eq
  intro i hi
  simp only [BitVec.getLsbD_extractLsb', BitVec.getLsbD_append]
  interval_cases i <;> simp

@[simp] theorem encodeB_funct3 (f3 : BitVec 3) (op : BitVec 7) (rs1 rs2 : RegIdx) (imm : Word) :
    (encodeB f3 op rs1 rs2 imm).extractLsb' 12 3 = f3 := by
  unfold encodeB
  apply BitVec.eq_of_getLsbD_eq
  intro i hi
  simp only [BitVec.getLsbD_extractLsb', BitVec.getLsbD_append]
  interval_cases i <;> simp

@[simp] theorem encodeB_rs1 (f3 : BitVec 3) (op : BitVec 7) (rs1 rs2 : RegIdx) (imm : Word) :
    (encodeB f3 op rs1 rs2 imm).extractLsb' 15 5 = BitVec.ofFin (w := 5) rs1 := by
  unfold encodeB
  apply BitVec.eq_of_getLsbD_eq
  intro i hi
  simp only [BitVec.getLsbD_extractLsb', BitVec.getLsbD_append]
  interval_cases i <;> simp

@[simp] theorem encodeB_rs2 (f3 : BitVec 3) (op : BitVec 7) (rs1 rs2 : RegIdx) (imm : Word) :
    (encodeB f3 op rs1 rs2 imm).extractLsb' 20 5 = BitVec.ofFin (w := 5) rs2 := by
  unfold encodeB
  apply BitVec.eq_of_getLsbD_eq
  intro i hi
  simp only [BitVec.getLsbD_extractLsb', BitVec.getLsbD_append]
  interval_cases i <;> simp

@[simp] theorem encodeU_opcode (op : BitVec 7) (rd : RegIdx) (imm : Word) :
    (encodeU op rd imm).extractLsb' 0 7 = op := by
  unfold encodeU
  apply BitVec.eq_of_getLsbD_eq
  intro i hi
  simp only [BitVec.getLsbD_extractLsb', BitVec.getLsbD_append]
  interval_cases i <;> simp

@[simp] theorem encodeU_rd (op : BitVec 7) (rd : RegIdx) (imm : Word) :
    (encodeU op rd imm).extractLsb' 7 5 = BitVec.ofFin (w := 5) rd := by
  unfold encodeU
  apply BitVec.eq_of_getLsbD_eq
  intro i hi
  simp only [BitVec.getLsbD_extractLsb', BitVec.getLsbD_append]
  interval_cases i <;> simp

@[simp] theorem encodeJ_opcode (op : BitVec 7) (rd : RegIdx) (imm : Word) :
    (encodeJ op rd imm).extractLsb' 0 7 = op := by
  unfold encodeJ
  apply BitVec.eq_of_getLsbD_eq
  intro i hi
  simp only [BitVec.getLsbD_extractLsb', BitVec.getLsbD_append]
  interval_cases i <;> simp

@[simp] theorem encodeJ_rd (op : BitVec 7) (rd : RegIdx) (imm : Word) :
    (encodeJ op rd imm).extractLsb' 7 5 = BitVec.ofFin (w := 5) rd := by
  unfold encodeJ
  apply BitVec.eq_of_getLsbD_eq
  intro i hi
  simp only [BitVec.getLsbD_extractLsb', BitVec.getLsbD_append]
  interval_cases i <;> simp

@[simp] theorem regField_ofFin (r : RegIdx) : regField (BitVec.ofFin (w := 5) r) = r := rfl

@[simp] theorem ofFin_regField (b : BitVec 5) : BitVec.ofFin (w := 5) (regField b) = b := rfl

/-! ## The immediates of an encoded word, where they fit -/

theorem fitsImm12_iff (imm : Word) : fitsImm12 imm = true ↔ sext (imm.setWidth 12) = imm := by
  simp only [fitsImm12, Bool.and_eq_true, decide_eq_true_eq]
  refine ⟨fun h => ?_, fun h => ?_⟩
  · apply BitVec.eq_of_toInt_eq
    rw [sext, BitVec.toInt_signExtend_of_le (by decide)]
    simp [BitVec.toInt_eq_toNat_bmod, Int.bmod_def] at h ⊢
    omega
  · rw [← h, sext, BitVec.toInt_signExtend_of_le (by decide)]
    have h1 := (imm.setWidth 12).toInt_lt
    have h2 := (imm.setWidth 12).le_toInt
    omega

theorem fitsImmB_iff (imm : Word) :
    fitsImmB imm = true ↔ sext (imm.setWidth 13) = imm ∧ imm.getLsbD 0 = false := by
  simp only [fitsImmB, Bool.and_eq_true, decide_eq_true_eq, Bool.not_eq_true']
  refine and_congr_left fun h0 => ⟨fun h => ?_, fun h => ?_⟩
  · apply BitVec.eq_of_toInt_eq
    rw [sext, BitVec.toInt_signExtend_of_le (by decide)]
    simp [BitVec.toInt_eq_toNat_bmod, Int.bmod_def] at h ⊢
    omega
  · have h1 : imm.toNat % 2 = 0 := by
      simpa [BitVec.getLsbD, Nat.testBit_zero] using h0
    rw [← h, sext, BitVec.toInt_signExtend_of_le (by decide)]
    simp [BitVec.toInt_eq_toNat_bmod, Int.bmod_def]
    omega

theorem fitsImmJ_iff (imm : Word) :
    fitsImmJ imm = true ↔ sext (imm.setWidth 21) = imm ∧ imm.getLsbD 0 = false := by
  simp only [fitsImmJ, Bool.and_eq_true, decide_eq_true_eq, Bool.not_eq_true']
  refine and_congr_left fun h0 => ⟨fun h => ?_, fun h => ?_⟩
  · apply BitVec.eq_of_toInt_eq
    rw [sext, BitVec.toInt_signExtend_of_le (by decide)]
    simp [BitVec.toInt_eq_toNat_bmod, Int.bmod_def] at h ⊢
    omega
  · have h1 : imm.toNat % 2 = 0 := by
      simpa [BitVec.getLsbD, Nat.testBit_zero] using h0
    rw [← h, sext, BitVec.toInt_signExtend_of_le (by decide)]
    simp [BitVec.toInt_eq_toNat_bmod, Int.bmod_def]
    omega

theorem fitsImmU_iff (imm : Word) : fitsImmU imm = true ↔ ∀ i < 12, imm.getLsbD i = false := by
  rw [fitsImmU, beq_iff_eq]
  refine ⟨fun h i hi => ?_, fun h => ?_⟩
  · have e := congrArg (BitVec.getLsbD · i) h
    simp only [BitVec.getLsbD_and] at e
    interval_cases i <;> simpa using e
  · apply BitVec.eq_of_getLsbD_eq
    intro i hi
    rw [BitVec.getLsbD_and]
    by_cases hlt : i < 12
    · simp [h i hlt]
    · interval_cases i <;> simp_all

theorem immIOf_encodeI (f3 : BitVec 3) (op : BitVec 7) (rd rs1 : RegIdx) (imm : Word)
    (h : fitsImm12 imm = true) : immIOf (encodeI f3 op rd rs1 imm) = imm := by
  refine Eq.trans (congrArg sext ?_) ((fitsImm12_iff imm).mp h)
  unfold encodeI
  apply BitVec.eq_of_getLsbD_eq
  intro i hi
  simp only [BitVec.getLsbD_extractLsb', BitVec.getLsbD_append, BitVec.getLsbD_setWidth]
  interval_cases i <;> simp

theorem immSOf_encodeS (f3 : BitVec 3) (op : BitVec 7) (rs1 rs2 : RegIdx) (imm : Word)
    (h : fitsImm12 imm = true) : immSOf (encodeS f3 op rs1 rs2 imm) = imm := by
  refine Eq.trans (congrArg sext ?_) ((fitsImm12_iff imm).mp h)
  unfold encodeS
  apply BitVec.eq_of_getLsbD_eq
  intro i hi
  simp only [BitVec.getLsbD_extractLsb', BitVec.getLsbD_append, BitVec.getLsbD_setWidth]
  interval_cases i <;> simp

theorem immBOf_encodeB (f3 : BitVec 3) (op : BitVec 7) (rs1 rs2 : RegIdx) (imm : Word)
    (h : fitsImmB imm = true) : immBOf (encodeB f3 op rs1 rs2 imm) = imm := by
  obtain ⟨h1, h2⟩ := (fitsImmB_iff imm).mp h
  refine Eq.trans (congrArg sext ?_) h1
  unfold encodeB
  apply BitVec.eq_of_getLsbD_eq
  intro i hi
  simp only [BitVec.getLsbD_extractLsb', BitVec.getLsbD_append, BitVec.getLsbD_setWidth]
  interval_cases i <;> simp [-BitVec.getLsbD_eq_getElem, h2]

theorem immJOf_encodeJ (op : BitVec 7) (rd : RegIdx) (imm : Word)
    (h : fitsImmJ imm = true) : immJOf (encodeJ op rd imm) = imm := by
  obtain ⟨h1, h2⟩ := (fitsImmJ_iff imm).mp h
  refine Eq.trans (congrArg sext ?_) h1
  unfold encodeJ
  apply BitVec.eq_of_getLsbD_eq
  intro i hi
  simp only [BitVec.getLsbD_extractLsb', BitVec.getLsbD_append, BitVec.getLsbD_setWidth]
  interval_cases i <;> simp [-BitVec.getLsbD_eq_getElem, h2]

theorem immUOf_encodeU (op : BitVec 7) (rd : RegIdx) (imm : Word)
    (h : fitsImmU imm = true) : immUOf (encodeU op rd imm) = imm := by
  have h' := (fitsImmU_iff imm).mp h
  unfold encodeU immUOf
  apply BitVec.eq_of_getLsbD_eq
  intro i hi
  simp only [BitVec.getLsbD_and, BitVec.getLsbD_append]
  by_cases hlt : i < 12
  · rw [h' i hlt]; interval_cases i <;> simp
  · interval_cases i <;> simp_all

/-! ## Every decoded immediate fits -/

theorem fits_sext12 (v : BitVec 12) : fitsImm12 (sext v) = true := by
  simp only [fitsImm12, Bool.and_eq_true, decide_eq_true_eq]
  rw [sext, BitVec.toInt_signExtend_of_le (by decide)]
  have h1 := v.toInt_lt
  have h2 := v.le_toInt
  omega

theorem sext_setWidth_sext {n : Nat} (v : BitVec n) (h : n ≤ 32) : sext ((sext v).setWidth n) = sext v := by
  refine congrArg sext (BitVec.eq_of_getLsbD_eq fun i hi => ?_)
  have h' : i < 32 := by omega
  simp only [sext, BitVec.getLsbD_setWidth, BitVec.getLsbD_signExtend]
  simp [hi, h']

@[simp] theorem fits_immIOf (w : Word) : fitsImm12 (immIOf w) = true := fits_sext12 _

@[simp] theorem fits_immSOf (w : Word) : fitsImm12 (immSOf w) = true := fits_sext12 _

@[simp] theorem fits_immBOf (w : Word) : fitsImmB (immBOf w) = true := by
  refine (fitsImmB_iff _).mpr ⟨sext_setWidth_sext _ (by decide), ?_⟩
  simp only [immBOf, sext, BitVec.getLsbD_signExtend, BitVec.getLsbD_append]
  simp

@[simp] theorem fits_immJOf (w : Word) : fitsImmJ (immJOf w) = true := by
  refine (fitsImmJ_iff _).mpr ⟨sext_setWidth_sext _ (by decide), ?_⟩
  simp only [immJOf, sext, BitVec.getLsbD_signExtend, BitVec.getLsbD_append]
  simp

@[simp] theorem fits_immUOf (w : Word) : fitsImmU (immUOf w) = true := by
  rw [fitsImmU_iff]
  intro i hi
  rw [immUOf, BitVec.getLsbD_and]
  interval_cases i <;> simp

/-! ## Encoding the fields and the immediate of a word gives the word -/

theorem encodeR_of_word (w : Word) :
    encodeR (w.extractLsb' 25 7) (w.extractLsb' 12 3) (w.extractLsb' 0 7) (regField (w.extractLsb' 7 5))
      (regField (w.extractLsb' 15 5)) (regField (w.extractLsb' 20 5)) = w := by
  unfold encodeR
  apply BitVec.eq_of_getLsbD_eq
  intro i hi
  simp only [ofFin_regField, BitVec.getLsbD_extractLsb', BitVec.getLsbD_append]
  interval_cases i <;> simp

theorem encodeI_of_word (w : Word) :
    encodeI (w.extractLsb' 12 3) (w.extractLsb' 0 7) (regField (w.extractLsb' 7 5))
      (regField (w.extractLsb' 15 5)) (immIOf w) = w := by
  unfold encodeI immIOf sext
  apply BitVec.eq_of_getLsbD_eq
  intro i hi
  simp only [ofFin_regField, BitVec.getLsbD_extractLsb', BitVec.getLsbD_append, BitVec.getLsbD_signExtend]
  interval_cases i <;> simp

theorem encodeS_of_word (w : Word) :
    encodeS (w.extractLsb' 12 3) (w.extractLsb' 0 7) (regField (w.extractLsb' 15 5))
      (regField (w.extractLsb' 20 5)) (immSOf w) = w := by
  unfold encodeS immSOf sext
  apply BitVec.eq_of_getLsbD_eq
  intro i hi
  simp only [ofFin_regField, BitVec.getLsbD_extractLsb', BitVec.getLsbD_append, BitVec.getLsbD_signExtend]
  interval_cases i <;> simp

theorem encodeB_of_word (w : Word) :
    encodeB (w.extractLsb' 12 3) (w.extractLsb' 0 7) (regField (w.extractLsb' 15 5))
      (regField (w.extractLsb' 20 5)) (immBOf w) = w := by
  unfold encodeB immBOf sext
  apply BitVec.eq_of_getLsbD_eq
  intro i hi
  simp only [ofFin_regField, BitVec.getLsbD_extractLsb', BitVec.getLsbD_append, BitVec.getLsbD_signExtend]
  interval_cases i <;> simp

theorem encodeU_of_word (w : Word) :
    encodeU (w.extractLsb' 0 7) (regField (w.extractLsb' 7 5)) (immUOf w) = w := by
  unfold encodeU immUOf
  apply BitVec.eq_of_getLsbD_eq
  intro i hi
  simp only [ofFin_regField, BitVec.getLsbD_extractLsb', BitVec.getLsbD_append, BitVec.getLsbD_and]
  interval_cases i <;> simp

theorem encodeJ_of_word (w : Word) :
    encodeJ (w.extractLsb' 0 7) (regField (w.extractLsb' 7 5)) (immJOf w) = w := by
  unfold encodeJ immJOf sext
  apply BitVec.eq_of_getLsbD_eq
  intro i hi
  simp only [ofFin_regField, BitVec.getLsbD_extractLsb', BitVec.getLsbD_append, BitVec.getLsbD_signExtend]
  interval_cases i <;> simp

/-! ## The masks of the opcode table (R69) as fields -/

/-- The word that holds an opcode alone. -/
def opcodePart (op : BitVec 7) : Word := op.setWidth 32

/-- The word that holds a funct3 and an opcode alone. -/
def funct3Part (f3 : BitVec 3) (op : BitVec 7) : Word := (f3 ++ 0#5 ++ op).setWidth 32

/-- The word that holds a funct7, a funct3 and an opcode alone. -/
def funct7Part (f7 : BitVec 7) (f3 : BitVec 3) (op : BitVec 7) : Word := f7 ++ 0#10 ++ f3 ++ 0#5 ++ op

theorem mask_opcode (w : Word) : w &&& 0x0000007F = opcodePart (w.extractLsb' 0 7) := by
  apply BitVec.eq_of_getLsbD_eq
  intro i hi
  simp only [opcodePart, BitVec.getLsbD_extractLsb', BitVec.getLsbD_setWidth, BitVec.getLsbD_and]
  interval_cases i <;> simp

theorem mask_funct3 (w : Word) :
    w &&& 0x0000707F = funct3Part (w.extractLsb' 12 3) (w.extractLsb' 0 7) := by
  apply BitVec.eq_of_getLsbD_eq
  intro i hi
  simp only [funct3Part, BitVec.getLsbD_extractLsb', BitVec.getLsbD_append, BitVec.getLsbD_setWidth,
    BitVec.getLsbD_and]
  interval_cases i <;> simp

theorem mask_funct7 (w : Word) :
    w &&& 0xFE00707F = funct7Part (w.extractLsb' 25 7) (w.extractLsb' 12 3) (w.extractLsb' 0 7) := by
  apply BitVec.eq_of_getLsbD_eq
  intro i hi
  simp only [funct7Part, BitVec.getLsbD_extractLsb', BitVec.getLsbD_append, BitVec.getLsbD_and]
  interval_cases i <;> simp

end Sys2Proof
end

