-- ==== Sys2Proof/Laws/State.lean ====
section
/-! SUPPORT. One lemma per field per update of State, each true by definition. -/

namespace Sys2Proof.Machine

variable (s : State)

@[simp] theorem setX_regs (i : RegIdx) (v : Word) : (s.setX i v).regs = s.regs.set i v := rfl
@[simp] theorem setX_pc (i : RegIdx) (v : Word) : (s.setX i v).pc = s.pc := rfl
@[simp] theorem setX_dmem (i : RegIdx) (v : Word) : (s.setX i v).dmem = s.dmem := rfl
@[simp] theorem setX_imem (i : RegIdx) (v : Word) : (s.setX i v).imem = s.imem := rfl
@[simp] theorem setX_breakpoints (i : RegIdx) (v : Word) : (s.setX i v).breakpoints = s.breakpoints := rfl
@[simp] theorem setX_runState (i : RegIdx) (v : Word) : (s.setX i v).runState = s.runState := rfl
@[simp] theorem setX_reports (i : RegIdx) (v : Word) : (s.setX i v).reports = s.reports := rfl

@[simp] theorem setSlot_regs (a : Nat) (v : Word) : (s.setSlot a v).regs = s.regs := rfl
@[simp] theorem setSlot_pc (a : Nat) (v : Word) : (s.setSlot a v).pc = s.pc := rfl
@[simp] theorem setSlot_dmem (a : Nat) (v : Word) : (s.setSlot a v).dmem = s.dmem.write Config.dmemReset a v := rfl
@[simp] theorem setSlot_imem (a : Nat) (v : Word) : (s.setSlot a v).imem = s.imem := rfl
@[simp] theorem setSlot_breakpoints (a : Nat) (v : Word) : (s.setSlot a v).breakpoints = s.breakpoints := rfl
@[simp] theorem setSlot_runState (a : Nat) (v : Word) : (s.setSlot a v).runState = s.runState := rfl
@[simp] theorem setSlot_reports (a : Nat) (v : Word) : (s.setSlot a v).reports = s.reports := rfl

@[simp] theorem setPc_regs (t : Word) : (s.setPc t).regs = s.regs := rfl
@[simp] theorem setPc_pc (t : Word) : (s.setPc t).pc = t := rfl
@[simp] theorem setPc_dmem (t : Word) : (s.setPc t).dmem = s.dmem := rfl
@[simp] theorem setPc_imem (t : Word) : (s.setPc t).imem = s.imem := rfl
@[simp] theorem setPc_breakpoints (t : Word) : (s.setPc t).breakpoints = s.breakpoints := rfl
@[simp] theorem setPc_runState (t : Word) : (s.setPc t).runState = s.runState := rfl
@[simp] theorem setPc_reports (t : Word) : (s.setPc t).reports = s.reports := rfl

@[simp] theorem advance_regs : (s.advance).regs = s.regs := rfl
@[simp] theorem advance_pc : (s.advance).pc = s.pc + Config.pcStep := rfl
@[simp] theorem advance_dmem : (s.advance).dmem = s.dmem := rfl
@[simp] theorem advance_imem : (s.advance).imem = s.imem := rfl
@[simp] theorem advance_breakpoints : (s.advance).breakpoints = s.breakpoints := rfl
@[simp] theorem advance_runState : (s.advance).runState = s.runState := rfl
@[simp] theorem advance_reports : (s.advance).reports = s.reports := rfl

@[simp] theorem setRunState_regs (r : RunState) : (s.setRunState r).regs = s.regs := rfl
@[simp] theorem setRunState_pc (r : RunState) : (s.setRunState r).pc = s.pc := rfl
@[simp] theorem setRunState_dmem (r : RunState) : (s.setRunState r).dmem = s.dmem := rfl
@[simp] theorem setRunState_imem (r : RunState) : (s.setRunState r).imem = s.imem := rfl
@[simp] theorem setRunState_breakpoints (r : RunState) : (s.setRunState r).breakpoints = s.breakpoints := rfl
@[simp] theorem setRunState_runState (r : RunState) : (s.setRunState r).runState = r := rfl
@[simp] theorem setRunState_reports (r : RunState) : (s.setRunState r).reports = s.reports := rfl

@[simp] theorem addBreakpoint_regs (p : Word) : (s.addBreakpoint p).regs = s.regs := rfl
@[simp] theorem addBreakpoint_pc (p : Word) : (s.addBreakpoint p).pc = s.pc := rfl
@[simp] theorem addBreakpoint_dmem (p : Word) : (s.addBreakpoint p).dmem = s.dmem := rfl
@[simp] theorem addBreakpoint_imem (p : Word) : (s.addBreakpoint p).imem = s.imem := rfl
@[simp] theorem addBreakpoint_breakpoints (p : Word) : (s.addBreakpoint p).breakpoints = p :: s.breakpoints := rfl
@[simp] theorem addBreakpoint_runState (p : Word) : (s.addBreakpoint p).runState = s.runState := rfl
@[simp] theorem addBreakpoint_reports (p : Word) : (s.addBreakpoint p).reports = s.reports := rfl

@[simp] theorem addReport_regs (r : Report) : (s.addReport r).regs = s.regs := rfl
@[simp] theorem addReport_pc (r : Report) : (s.addReport r).pc = s.pc := rfl
@[simp] theorem addReport_dmem (r : Report) : (s.addReport r).dmem = s.dmem := rfl
@[simp] theorem addReport_imem (r : Report) : (s.addReport r).imem = s.imem := rfl
@[simp] theorem addReport_breakpoints (r : Report) : (s.addReport r).breakpoints = s.breakpoints := rfl
@[simp] theorem addReport_runState (r : Report) : (s.addReport r).runState = s.runState := rfl
@[simp] theorem addReport_reports (r : Report) : (s.addReport r).reports = r :: s.reports := rfl

/-! ## Registers and slots through the updates -/

theorem x_eq (i : RegIdx) : s.x i = s.regs[i] := rfl

@[simp] theorem setX_x_same (i : RegIdx) (v : Word) : (s.setX i v).x i = v := by
  simp [x_eq]

@[simp] theorem setX_x_ne (i j : RegIdx) (v : Word) (h : j ≠ i) : (s.setX i v).x j = s.x j := by
  have h' : i.val ≠ j.val := fun e => h (Fin.ext e.symm)
  simp [x_eq, Vector.getElem_set_ne _ _ h']

@[simp] theorem setX_slot (i : RegIdx) (v : Word) (a : Nat) : (s.setX i v).slot a = s.slot a := rfl

@[simp] theorem setSlot_x (a : Nat) (v : Word) (j : RegIdx) : (s.setSlot a v).x j = s.x j := rfl
@[simp] theorem setPc_x (t : Word) (j : RegIdx) : (s.setPc t).x j = s.x j := rfl
@[simp] theorem setPc_slot (t : Word) (n : Nat) : (s.setPc t).slot n = s.slot n := rfl
@[simp] theorem advance_x (j : RegIdx) : (s.advance).x j = s.x j := rfl
@[simp] theorem advance_slot (n : Nat) : (s.advance).slot n = s.slot n := rfl
@[simp] theorem setRunState_x (r : RunState) (j : RegIdx) : (s.setRunState r).x j = s.x j := rfl
@[simp] theorem setRunState_slot (r : RunState) (n : Nat) : (s.setRunState r).slot n = s.slot n := rfl
@[simp] theorem addBreakpoint_x (p : Word) (j : RegIdx) : (s.addBreakpoint p).x j = s.x j := rfl
@[simp] theorem addBreakpoint_slot (p : Word) (n : Nat) : (s.addBreakpoint p).slot n = s.slot n := rfl
@[simp] theorem addReport_x (r : Report) (j : RegIdx) : (s.addReport r).x j = s.x j := rfl
@[simp] theorem addReport_slot (r : Report) (n : Nat) : (s.addReport r).slot n = s.slot n := rfl

end Sys2Proof.Machine
end

