-- ==== Sys2Proof/Laws/Memory.lean ====
section
/-! SUPPORT. The laws of a memory: the canonical form, read after write, equal reads, equal lists. -/

namespace Sys2Proof.Machine

variable {d : Word}

@[simp] theorem memory_read_nil (a : Nat) : Memory.read d [] a = d := rfl

theorem memory_read_cons (b : Nat) (v : Word) (m : Memory) (a : Nat) :
    Memory.read d ((b, v) :: m) a = if a = b then v else Memory.read d m a := rfl

theorem memory_wfFrom_cons {hi lo a : Nat} {v : Word} {m : Memory} :
    Memory.wfFrom d hi lo ((a, v) :: m) = true ↔
      lo ≤ a ∧ a < hi ∧ v ≠ d ∧ Memory.wfFrom d hi (a + 1) m = true := by
  simp only [Memory.wfFrom, Bool.and_eq_true, decide_eq_true_eq, and_assoc]

theorem memory_wfFrom_mono {hi lo lo' : Nat} (h : lo' ≤ lo) :
    ∀ {m : Memory}, Memory.wfFrom d hi lo m = true → Memory.wfFrom d hi lo' m = true
  | [], _ => rfl
  | (_, _) :: _, hm => by
    rw [memory_wfFrom_cons] at hm ⊢
    exact ⟨h.trans hm.1, hm.2⟩

/-- Below its first index a canonical memory lists nothing. -/
theorem memory_read_below {hi : Nat} : ∀ {lo : Nat} {m : Memory} {a : Nat},
    Memory.wfFrom d hi lo m = true → a < lo → m.read d a = d
  | _, [], _, _, _ => rfl
  | lo, (b, v) :: m, a, hm, ha => by
    obtain ⟨h1, -, -, h4⟩ := memory_wfFrom_cons.mp hm
    rw [memory_read_cons, if_neg (by omega)]
    exact memory_read_below h4 (by omega)

/-- A write inside the bound keeps the canonical form. -/
theorem memory_write_wfFrom {hi : Nat} {a : Nat} (v : Word) (ha : a < hi) :
    ∀ {lo : Nat} {m : Memory}, Memory.wfFrom d hi lo m = true → lo ≤ a →
      Memory.wfFrom d hi lo (m.write d a v) = true
  | lo, [], _, hlo => by
    unfold Memory.write
    split
    · rfl
    · rw [memory_wfFrom_cons]; exact ⟨hlo, ha, ‹_›, rfl⟩
  | lo, (b, u) :: m, hm, hlo => by
    obtain ⟨h1, h2, h3, h4⟩ := memory_wfFrom_cons.mp hm
    unfold Memory.write
    split_ifs with c1 c2 c3 c4
    · exact hm
    · rw [memory_wfFrom_cons]
      exact ⟨hlo, ha, c2, memory_wfFrom_cons.mpr ⟨by omega, h2, h3, h4⟩⟩
    · exact memory_wfFrom_mono (by omega) h4
    · subst c3
      rw [memory_wfFrom_cons]
      exact ⟨h1, h2, c4, h4⟩
    · rw [memory_wfFrom_cons]
      exact ⟨h1, h2, h3, memory_write_wfFrom v ha h4 (by omega)⟩

theorem memory_write_wf {hi a : Nat} {m : Memory} (v : Word) (hm : m.wf d hi = true) (ha : a < hi) :
    (m.write d a v).wf d hi = true :=
  memory_write_wfFrom v ha hm (Nat.zero_le _)

theorem memory_write_lt {a b : Nat} (u v : Word) (m : Memory) (h : a < b) :
    Memory.write d ((b, u) :: m) a v =
      if v = d then (b, u) :: m else (a, v) :: (b, u) :: m := by
  rw [Memory.write, if_pos h]

theorem memory_write_eq (a : Nat) (u v : Word) (m : Memory) :
    Memory.write d ((a, u) :: m) a v = if v = d then m else (a, v) :: m := by
  rw [Memory.write, if_neg (by omega), if_pos rfl]

theorem memory_write_gt {a b : Nat} (u v : Word) (m : Memory) (h : b < a) :
    Memory.write d ((b, u) :: m) a v = (b, u) :: m.write d a v := by
  rw [Memory.write, if_neg (by omega), if_neg (by omega)]

/-- A read after a write: the value at its index, and every other index as before. -/
theorem memory_read_writeFrom {hi : Nat} (a : Nat) (v : Word) (n : Nat) :
    ∀ {lo : Nat} {m : Memory}, Memory.wfFrom d hi lo m = true →
      (m.write d a v).read d n = if n = a then v else m.read d n
  | _, [], _ => by
    unfold Memory.write
    split_ifs <;> simp_all [memory_read_cons]
  | _, (b, u) :: m, hm => by
    obtain ⟨-, -, -, h4⟩ := memory_wfFrom_cons.mp hm
    have below : ∀ k, k < b + 1 → Memory.read d m k = d := fun k hk => memory_read_below h4 hk
    rcases Nat.lt_trichotomy a b with hlt | rfl | hgt
    · rw [memory_write_lt u v m hlt]
      by_cases hv : v = d
      · rw [if_pos hv]
        split
        · subst n; rw [memory_read_cons, if_neg (by omega), below a (by omega), hv]
        · rfl
      · rw [if_neg hv, memory_read_cons]
    · rw [memory_write_eq]
      by_cases hv : v = d
      · rw [if_pos hv, memory_read_cons]
        split
        · subst n; rw [below a (by omega), hv]
        · rfl
      · rw [if_neg hv, memory_read_cons, memory_read_cons]
        split <;> rfl
    · rw [memory_write_gt u v m hgt, memory_read_cons, memory_read_cons,
        memory_read_writeFrom a v n h4]
      split
      · rw [if_neg (by omega)]
      · rfl

theorem memory_read_write {hi : Nat} {m : Memory} (hm : m.wf d hi = true) (a : Nat) (v : Word) (n : Nat) :
    (m.write d a v).read d n = if n = a then v else m.read d n :=
  memory_read_writeFrom a v n hm

/-- Nothing is listed at or above the bound. -/
theorem memory_read_above {hi : Nat} : ∀ {lo : Nat} {m : Memory} {a : Nat},
    Memory.wfFrom d hi lo m = true → hi ≤ a → m.read d a = d
  | _, [], _, _, _ => rfl
  | _, (b, v) :: m, a, hm, ha => by
    obtain ⟨-, h2, -, h4⟩ := memory_wfFrom_cons.mp hm
    rw [memory_read_cons, if_neg (by omega)]
    exact memory_read_above h4 ha

/-- Equal memories are equal lists: the canonical form is unique. -/
theorem memory_ext_from {hi : Nat} : ∀ {lo : Nat} {m m' : Memory},
    Memory.wfFrom d hi lo m = true → Memory.wfFrom d hi lo m' = true →
      (∀ a, m.read d a = m'.read d a) → m = m'
  | _, [], [], _, _, _ => rfl
  | _, [], (b, v) :: m', _, hm', h => by
    obtain ⟨-, -, h3, -⟩ := memory_wfFrom_cons.mp hm'
    have := h b
    simp_all [memory_read_cons]
  | _, (b, v) :: m, [], hm, _, h => by
    obtain ⟨-, -, h3, -⟩ := memory_wfFrom_cons.mp hm
    have := h b
    simp_all [memory_read_cons]
  | lo, (b, v) :: m, (c, u) :: m', hm, hm', h => by
    obtain ⟨g1, g2, g3, g4⟩ := memory_wfFrom_cons.mp hm
    obtain ⟨k1, k2, k3, k4⟩ := memory_wfFrom_cons.mp hm'
    have hbc : b = c := by
      rcases Nat.lt_trichotomy b c with hlt | heq | hgt
      · have e := h b
        rw [memory_read_cons, if_pos rfl, memory_read_cons, if_neg (by omega),
          memory_read_below k4 (by omega)] at e
        exact absurd e g3
      · exact heq
      · have e := h c
        rw [memory_read_cons, if_neg (by omega), memory_read_cons, if_pos rfl,
          memory_read_below g4 (by omega)] at e
        exact absurd e.symm k3
    subst hbc
    have hv : v = u := by simpa [memory_read_cons] using h b
    subst hv
    have ht : m = m' := by
      refine memory_ext_from g4 k4 fun a => ?_
      by_cases ha : a = b
      · subst ha
        rw [memory_read_below g4 (by omega), memory_read_below k4 (by omega)]
      · simpa [memory_read_cons, ha] using h a
    rw [ht]

theorem memory_ext {hi : Nat} {m m' : Memory} (hm : m.wf d hi = true) (hm' : m'.wf d hi = true)
    (h : ∀ a, m.read d a = m'.read d a) : m = m' :=
  memory_ext_from hm hm' h

theorem memory_wf_nil (hi : Nat) : Memory.wf d hi [] = true := rfl

end Sys2Proof.Machine
end

