-- ==== Sys2Proof/Laws/Exec.lean ====
section
/-! SUPPORT. One spec lemma per shared operation, and what an instruction can do, said once. -/

namespace Sys2Proof.Machine

/-! ## The bounds check and the accessors -/

theorem checkIndex_inside {bound : Nat} {i : Int} (h : 0 ≤ i ∧ i < bound) :
    checkIndex bound i = .ok i.toNat := if_pos h

theorem checkIndex_outside {bound : Nat} {i : Int} (h : ¬ (0 ≤ i ∧ i < bound)) :
    checkIndex bound i = .error (.invalidIndex i) := if_neg h

theorem checkIndex_nat {bound n : Nat} (h : n < bound) : checkIndex bound (n : Int) = .ok n := by
  rw [checkIndex_inside ⟨by omega, by omega⟩]; rfl

theorem checkIndex_ok_iff {bound : Nat} {i : Int} {n : Nat} :
    checkIndex bound i = .ok n ↔ i = n ∧ n < bound := by
  unfold checkIndex
  split
  · simp only [Except.ok.injEq]; omega
  · simp only [reduceCtorEq, false_iff]; omega

theorem regRead_regIdx (s : State) (i : RegIdx) : regRead s i.val = .ok (s.x i) := by
  rw [regRead, checkIndex_nat i.isLt]
  exact congrArg (fun j => Except.ok (s.x j)) (Fin.ofNat_val_eq_self i)

theorem regWrite_regIdx (s : State) (i : RegIdx) (v : Word) :
    regWrite s i.val v = .ok (s.setX i v) := by
  rw [regWrite, checkIndex_nat i.isLt]
  exact congrArg (fun j => Except.ok (s.setX j v)) (Fin.ofNat_val_eq_self i)

section
variable {s : State} {a : Int}

theorem readWord_inside (h : InDataMemory a) : readWord s a = .ok (s.slot a.toNat) := by
  rw [readWord, checkIndex_inside h]

theorem readHalf_inside (h : InDataMemory a) :
    readHalf s a = .ok ((s.slot a.toNat).extractLsb' 0 16) := by
  rw [readHalf, checkIndex_inside h]

theorem readByte_inside (h : InDataMemory a) :
    readByte s a = .ok ((s.slot a.toNat).extractLsb' 0 8) := by
  rw [readByte, checkIndex_inside h]

theorem writeWord_inside (v : Word) (h : InDataMemory a) :
    writeWord s a v = .ok (s.setSlot a.toNat v) := by
  rw [writeWord, checkIndex_inside h]

theorem writeHalf_inside (v : Word) (h : InDataMemory a) :
    writeHalf s a v = .ok (s.setSlot a.toNat (mergeLow (s.slot a.toNat) (v.extractLsb' 0 16))) := by
  rw [writeHalf, checkIndex_inside h]

theorem writeByte_inside (v : Word) (h : InDataMemory a) :
    writeByte s a v = .ok (s.setSlot a.toNat (mergeLow (s.slot a.toNat) (v.extractLsb' 0 8))) := by
  rw [writeByte, checkIndex_inside h]

theorem readWord_outside (h : ¬ InDataMemory a) : readWord s a = .error (.invalidIndex a) := by
  rw [readWord, checkIndex_outside h]

theorem readHalf_outside (h : ¬ InDataMemory a) : readHalf s a = .error (.invalidIndex a) := by
  rw [readHalf, checkIndex_outside h]

theorem readByte_outside (h : ¬ InDataMemory a) : readByte s a = .error (.invalidIndex a) := by
  rw [readByte, checkIndex_outside h]

theorem writeWord_outside (v : Word) (h : ¬ InDataMemory a) :
    writeWord s a v = .error (.invalidIndex a) := by
  rw [writeWord, checkIndex_outside h]

theorem writeHalf_outside (v : Word) (h : ¬ InDataMemory a) :
    writeHalf s a v = .error (.invalidIndex a) := by
  rw [writeHalf, checkIndex_outside h]

theorem writeByte_outside (v : Word) (h : ¬ InDataMemory a) :
    writeByte s a v = .error (.invalidIndex a) := by
  rw [writeByte, checkIndex_outside h]

end

/-! ## Slots -/

/-- A slot after a write, in a canonical memory. -/
theorem setSlot_slot {s : State} (h : s.dmem.wf Config.dmemReset Config.dmemWords = true) (a : Nat) (v : Word) (n : Nat) :
    (s.setSlot a v).slot n = if n = a then v else s.slot n :=
  memory_read_write h a v n

/-- The bits of a slot after its low n bits were replaced (R35, R36). -/
theorem mergeLow_bit {n : Nat} (old : Word) (v : BitVec n) (i : Nat) (hi : i < 32) :
    (mergeLow old v).getLsbD i = if i < n then v.getLsbD i else old.getLsbD i := by
  show (((old >>> n) <<< n) ||| v.setWidth 32).getLsbD i = _
  simp only [BitVec.getLsbD_or, BitVec.getLsbD_shiftLeft, BitVec.getLsbD_ushiftRight,
    BitVec.getLsbD_setWidth]
  split
  · simp [*]
  · rw [BitVec.getLsbD_of_ge v i (by omega)]
    have : n + (i - n) = i := by omega
    simp [*]

/-! ## What an instruction can do -/

/-- The next states of an instruction: a register written and pc + 1; a link written and a jump; the
pc alone; or one slot written and pc + 1. Or it faults at its access address. -/
theorem exec_cases (i : Instr) (s : State) :
    (∃ rd v, destOf i = some rd ∧ storeAddressOf s i = none ∧ isTransfer i = false ∧
      exec i s = .next (s.setX rd v).advance) ∨
    (∃ rd target, destOf i = some rd ∧ storeAddressOf s i = none ∧ isTransfer i = true ∧
      exec i s = .next ((s.setX rd (s.pc + Config.pcStep)).setPc target)) ∨
    (∃ target, destOf i = none ∧ storeAddressOf s i = none ∧ isTransfer i = true ∧
      exec i s = .next (s.setPc target)) ∨
    (∃ n v, n < Config.dmemWords ∧ destOf i = none ∧ storeAddressOf s i = some (n : Int) ∧
      isTransfer i = false ∧ exec i s = .next (s.setSlot n v).advance) ∨
    (∃ a, accessAddressOf s i = some a ∧ ¬ InDataMemory a ∧ exec i s = .fault (.invalidIndex a)) := by
  have branch : ∀ (c : Bool) (imm : Word), ∃ t, finishBranch s c imm = .next (s.setPc t) := by
    intro c imm
    cases c
    · exact ⟨_, rfl⟩
    · exact ⟨_, rfl⟩
  cases i
  case jal rd imm => exact .inr (.inl ⟨rd, _, rfl, rfl, rfl, rfl⟩)
  case jalr rd rs1 imm => exact .inr (.inl ⟨rd, _, rfl, rfl, rfl, rfl⟩)
  case beq | bne | blt | bge | bltu | bgeu =>
    obtain ⟨t, ht⟩ := branch _ _
    exact .inr (.inr (.inl ⟨t, rfl, rfl, rfl, ht⟩))
  case lb rd rs1 imm =>
    by_cases h : InDataMemory (effectiveAddress s rs1 imm)
    · exact .inl ⟨rd, _, rfl, rfl, rfl, by simp only [exec, execLb, readByte_inside h]; rfl⟩
    · exact .inr (.inr (.inr (.inr ⟨_, rfl, h, by simp only [exec, execLb, readByte_outside h]; rfl⟩)))
  case lbu rd rs1 imm =>
    by_cases h : InDataMemory (effectiveAddress s rs1 imm)
    · exact .inl ⟨rd, _, rfl, rfl, rfl, by simp only [exec, execLbu, readByte_inside h]; rfl⟩
    · exact .inr (.inr (.inr (.inr ⟨_, rfl, h, by simp only [exec, execLbu, readByte_outside h]; rfl⟩)))
  case lh rd rs1 imm =>
    by_cases h : InDataMemory (effectiveAddress s rs1 imm)
    · exact .inl ⟨rd, _, rfl, rfl, rfl, by simp only [exec, execLh, readHalf_inside h]; rfl⟩
    · exact .inr (.inr (.inr (.inr ⟨_, rfl, h, by simp only [exec, execLh, readHalf_outside h]; rfl⟩)))
  case lhu rd rs1 imm =>
    by_cases h : InDataMemory (effectiveAddress s rs1 imm)
    · exact .inl ⟨rd, _, rfl, rfl, rfl, by simp only [exec, execLhu, readHalf_inside h]; rfl⟩
    · exact .inr (.inr (.inr (.inr ⟨_, rfl, h, by simp only [exec, execLhu, readHalf_outside h]; rfl⟩)))
  case lw rd rs1 imm =>
    by_cases h : InDataMemory (effectiveAddress s rs1 imm)
    · exact .inl ⟨rd, _, rfl, rfl, rfl, by simp only [exec, execLw, readWord_inside h]; rfl⟩
    · exact .inr (.inr (.inr (.inr ⟨_, rfl, h, by simp only [exec, execLw, readWord_outside h]; rfl⟩)))
  case sb rs1 rs2 imm =>
    by_cases h : InDataMemory (effectiveAddress s rs1 imm)
    · exact .inr (.inr (.inr (.inl ⟨_, _, (Int.toNat_lt h.1).mpr h.2, rfl,
        congrArg some (Int.toNat_of_nonneg h.1).symm, rfl,
        by simp only [exec, execSb, writeByte_inside _ h]; rfl⟩)))
    · exact .inr (.inr (.inr (.inr ⟨_, rfl, h, by simp only [exec, execSb, writeByte_outside _ h]; rfl⟩)))
  case sh rs1 rs2 imm =>
    by_cases h : InDataMemory (effectiveAddress s rs1 imm)
    · exact .inr (.inr (.inr (.inl ⟨_, _, (Int.toNat_lt h.1).mpr h.2, rfl,
        congrArg some (Int.toNat_of_nonneg h.1).symm, rfl,
        by simp only [exec, execSh, writeHalf_inside _ h]; rfl⟩)))
    · exact .inr (.inr (.inr (.inr ⟨_, rfl, h, by simp only [exec, execSh, writeHalf_outside _ h]; rfl⟩)))
  case sw rs1 rs2 imm =>
    by_cases h : InDataMemory (effectiveAddress s rs1 imm)
    · exact .inr (.inr (.inr (.inl ⟨_, _, (Int.toNat_lt h.1).mpr h.2, rfl,
        congrArg some (Int.toNat_of_nonneg h.1).symm, rfl,
        by simp only [exec, execSw, writeWord_inside _ h]; rfl⟩)))
    · exact .inr (.inr (.inr (.inr ⟨_, rfl, h, by simp only [exec, execSw, writeWord_outside _ h]; rfl⟩)))
  all_goals exact .inl ⟨_, _, rfl, rfl, rfl, rfl⟩

theorem step_halted {s : State} (h : pcInRange s.pc = false) : step s = .next s := by
  rw [step, stepOnce, if_neg (by simp [h])]

theorem step_ok {s : State} {i : Instr} (h : pcInRange s.pc = true) (hd : decode (fetch s) = .ok i) :
    step s = exec i s := by
  rw [step, stepOnce, if_pos h, execute, show select (decodeFields (fetch s)) = .ok i from hd]

theorem step_unsupported {s : State} {e : DecodeError} (h : pcInRange s.pc = true)
    (hd : decode (fetch s) = .error e) :
    step s = .next (s.addReport ⟨s.pc, fetch s⟩).advance := by
  rw [step, stepOnce, if_pos h, execute, show select (decodeFields (fetch s)) = .error e from hd]
  rfl

/-- The cases of a step: halted, an instruction, or an unsupported word. -/
theorem step_cases (s : State) :
    (pcInRange s.pc = false ∧ step s = .next s) ∨
    (∃ i, pcInRange s.pc = true ∧ decode (fetch s) = .ok i ∧ step s = exec i s) ∨
    (∃ e, pcInRange s.pc = true ∧ decode (fetch s) = .error e ∧
      step s = .next (s.addReport ⟨s.pc, fetch s⟩).advance) := by
  cases h : pcInRange s.pc with
  | false => exact .inl ⟨rfl, step_halted h⟩
  | true =>
    cases hd : decode (fetch s) with
    | ok i => exact .inr (.inl ⟨i, rfl, rfl, step_ok h hd⟩)
    | error e => exact .inr (.inr ⟨e, rfl, rfl, step_unsupported h hd⟩)

/-! ## Every operation keeps the canonical form of the memories -/

theorem setSlot_dmem_wf {s : State} {n : Nat} (v : Word) (h : s.dmem.wf Config.dmemReset Config.dmemWords = true)
    (hn : n < Config.dmemWords) : (s.setSlot n v).dmem.wf Config.dmemReset Config.dmemWords = true :=
  memory_write_wf v h hn

theorem storeProgram_wf : ∀ (ws : List Word) (m : Memory) (i : Nat),
    m.wf Config.imemFill Config.imemWords = true → i + ws.length ≤ Config.imemWords →
      (storeProgram m i ws).wf Config.imemFill Config.imemWords = true
  | [], _, _, h, _ => h
  | _ :: ws, _, i, h, hl =>
    storeProgram_wf ws _ (i + 1) (memory_write_wf _ h (by simp at hl ⊢; omega)) (by simp at hl ⊢; omega)

theorem loadProgram_imem_wf {s t : State} {p : List Word} (h : s.imem.wf Config.imemFill Config.imemWords = true)
    (ht : loadProgram s p = some t) : t.imem.wf Config.imemFill Config.imemWords = true := by
  unfold loadProgram at ht
  split at ht
  · cases ht
    exact storeProgram_wf p _ 0 h (by omega)
  · cases ht

theorem pcInRange_toNat_lt {pc : Word} (h : pcInRange pc = true) : pc.toNat < Config.imemWords := by
  simp only [pcInRange, Bool.and_eq_true, decide_eq_true_eq] at h
  have := BitVec.toInt_eq_toNat_cond pc
  omega

theorem placeFetchWord_imem_wf {s : State} (nbits w : Nat) (h : s.imem.wf Config.imemFill Config.imemWords = true) :
    (placeFetchWord s nbits w).imem.wf Config.imemFill Config.imemWords = true := by
  refine memory_write_wf _ h ?_
  rw [fetchIndex_eq]
  split
  · exact pcInRange_toNat_lt ‹_›
  · decide

end Sys2Proof.Machine
end

