-- ==== Sys2Proof/Laws/PerInstr.lean ====
section
/-! SUPPORT. Statements made per instruction, about the instruction as syntax. The family
MatchesItsRow: the encoder's word of an instruction matches the row of spec/opcode_table.json that
bears its mnemonic (R69). -/

namespace Sys2Proof.Laws.MatchesItsRow

/-- The encoded word has the mask and match of the row with the instruction's mnemonic. -/
def Statement (i : Instr) : Prop :=
  ∃ r ∈ opcodeTable, r.mnemonic = mnemonicOf i ∧ matchesRow (encode i) r = true

theorem of_opcode {i : Instr} {pattern : Word} (op : BitVec 7)
    (hr : ⟨mnemonicOf i, 0x0000007F, pattern⟩ ∈ opcodeTable) (hp : opcodePart op = pattern)
    (ho : (encode i).extractLsb' 0 7 = op) : Statement i :=
  ⟨_, hr, rfl, beq_iff_eq.mpr (by rw [mask_opcode, ho, hp])⟩

theorem of_funct3 {i : Instr} {pattern : Word} (f3 : BitVec 3) (op : BitVec 7)
    (hr : ⟨mnemonicOf i, 0x0000707F, pattern⟩ ∈ opcodeTable) (hp : funct3Part f3 op = pattern)
    (h3 : (encode i).extractLsb' 12 3 = f3) (ho : (encode i).extractLsb' 0 7 = op) : Statement i :=
  ⟨_, hr, rfl, beq_iff_eq.mpr (by rw [mask_funct3, h3, ho, hp])⟩

theorem of_funct7 {i : Instr} {pattern : Word} (f7 : BitVec 7) (f3 : BitVec 3) (op : BitVec 7)
    (hr : ⟨mnemonicOf i, 0xFE00707F, pattern⟩ ∈ opcodeTable) (hp : funct7Part f7 f3 op = pattern)
    (h7 : (encode i).extractLsb' 25 7 = f7) (h3 : (encode i).extractLsb' 12 3 = f3)
    (ho : (encode i).extractLsb' 0 7 = op) : Statement i :=
  ⟨_, hr, rfl, beq_iff_eq.mpr (by rw [mask_funct7, h7, h3, ho, hp])⟩

theorem row_lui : (⟨"LUI", 0x0000007F, 0x00000037⟩ : TableRow) ∈ opcodeTable := by decide

theorem lui (rd : RegIdx) (imm : Word) : Statement (.lui rd imm) :=
  of_opcode 0x37 (row_lui) rfl (encodeU_opcode _ _ _)

theorem row_auipc : (⟨"AUIPC", 0x0000007F, 0x00000017⟩ : TableRow) ∈ opcodeTable := by decide

theorem auipc (rd : RegIdx) (imm : Word) : Statement (.auipc rd imm) :=
  of_opcode 0x17 (row_auipc) rfl (encodeU_opcode _ _ _)

theorem row_jal : (⟨"JAL", 0x0000007F, 0x0000006F⟩ : TableRow) ∈ opcodeTable := by decide

theorem jal (rd : RegIdx) (imm : Word) : Statement (.jal rd imm) :=
  of_opcode 0x6f (row_jal) rfl (encodeJ_opcode _ _ _)

theorem row_jalr : (⟨"JALR", 0x0000707F, 0x00000067⟩ : TableRow) ∈ opcodeTable := by decide

theorem jalr (rd rs1 : RegIdx) (imm : Word) : Statement (.jalr rd rs1 imm) :=
  of_funct3 0 0x67 (row_jalr) rfl (encodeI_funct3 _ _ _ _ _) (encodeI_opcode _ _ _ _ _)

theorem row_beq : (⟨"BEQ", 0x0000707F, 0x00000063⟩ : TableRow) ∈ opcodeTable := by decide

theorem beq (rs1 rs2 : RegIdx) (imm : Word) : Statement (.beq rs1 rs2 imm) :=
  of_funct3 0 0x63 (row_beq) rfl (encodeB_funct3 _ _ _ _ _) (encodeB_opcode _ _ _ _ _)

theorem row_bne : (⟨"BNE", 0x0000707F, 0x00001063⟩ : TableRow) ∈ opcodeTable := by decide

theorem bne (rs1 rs2 : RegIdx) (imm : Word) : Statement (.bne rs1 rs2 imm) :=
  of_funct3 1 0x63 (row_bne) rfl (encodeB_funct3 _ _ _ _ _) (encodeB_opcode _ _ _ _ _)

theorem row_blt : (⟨"BLT", 0x0000707F, 0x00004063⟩ : TableRow) ∈ opcodeTable := by decide

theorem blt (rs1 rs2 : RegIdx) (imm : Word) : Statement (.blt rs1 rs2 imm) :=
  of_funct3 4 0x63 (row_blt) rfl (encodeB_funct3 _ _ _ _ _) (encodeB_opcode _ _ _ _ _)

theorem row_bge : (⟨"BGE", 0x0000707F, 0x00005063⟩ : TableRow) ∈ opcodeTable := by decide

theorem bge (rs1 rs2 : RegIdx) (imm : Word) : Statement (.bge rs1 rs2 imm) :=
  of_funct3 5 0x63 (row_bge) rfl (encodeB_funct3 _ _ _ _ _) (encodeB_opcode _ _ _ _ _)

theorem row_bltu : (⟨"BLTU", 0x0000707F, 0x00006063⟩ : TableRow) ∈ opcodeTable := by decide

theorem bltu (rs1 rs2 : RegIdx) (imm : Word) : Statement (.bltu rs1 rs2 imm) :=
  of_funct3 6 0x63 (row_bltu) rfl (encodeB_funct3 _ _ _ _ _) (encodeB_opcode _ _ _ _ _)

theorem row_bgeu : (⟨"BGEU", 0x0000707F, 0x00007063⟩ : TableRow) ∈ opcodeTable := by decide

theorem bgeu (rs1 rs2 : RegIdx) (imm : Word) : Statement (.bgeu rs1 rs2 imm) :=
  of_funct3 7 0x63 (row_bgeu) rfl (encodeB_funct3 _ _ _ _ _) (encodeB_opcode _ _ _ _ _)

theorem row_lb : (⟨"LB", 0x0000707F, 0x00000003⟩ : TableRow) ∈ opcodeTable := by decide

theorem lb (rd rs1 : RegIdx) (imm : Word) : Statement (.lb rd rs1 imm) :=
  of_funct3 0 0x3 (row_lb) rfl (encodeI_funct3 _ _ _ _ _) (encodeI_opcode _ _ _ _ _)

theorem row_lh : (⟨"LH", 0x0000707F, 0x00001003⟩ : TableRow) ∈ opcodeTable := by decide

theorem lh (rd rs1 : RegIdx) (imm : Word) : Statement (.lh rd rs1 imm) :=
  of_funct3 1 0x3 (row_lh) rfl (encodeI_funct3 _ _ _ _ _) (encodeI_opcode _ _ _ _ _)

theorem row_lw : (⟨"LW", 0x0000707F, 0x00002003⟩ : TableRow) ∈ opcodeTable := by decide

theorem lw (rd rs1 : RegIdx) (imm : Word) : Statement (.lw rd rs1 imm) :=
  of_funct3 2 0x3 (row_lw) rfl (encodeI_funct3 _ _ _ _ _) (encodeI_opcode _ _ _ _ _)

theorem row_lbu : (⟨"LBU", 0x0000707F, 0x00004003⟩ : TableRow) ∈ opcodeTable := by decide

theorem lbu (rd rs1 : RegIdx) (imm : Word) : Statement (.lbu rd rs1 imm) :=
  of_funct3 4 0x3 (row_lbu) rfl (encodeI_funct3 _ _ _ _ _) (encodeI_opcode _ _ _ _ _)

theorem row_lhu : (⟨"LHU", 0x0000707F, 0x00005003⟩ : TableRow) ∈ opcodeTable := by decide

theorem lhu (rd rs1 : RegIdx) (imm : Word) : Statement (.lhu rd rs1 imm) :=
  of_funct3 5 0x3 (row_lhu) rfl (encodeI_funct3 _ _ _ _ _) (encodeI_opcode _ _ _ _ _)

theorem row_sb : (⟨"SB", 0x0000707F, 0x00000023⟩ : TableRow) ∈ opcodeTable := by decide

theorem sb (rs1 rs2 : RegIdx) (imm : Word) : Statement (.sb rs1 rs2 imm) :=
  of_funct3 0 0x23 (row_sb) rfl (encodeS_funct3 _ _ _ _ _) (encodeS_opcode _ _ _ _ _)

theorem row_sh : (⟨"SH", 0x0000707F, 0x00001023⟩ : TableRow) ∈ opcodeTable := by decide

theorem sh (rs1 rs2 : RegIdx) (imm : Word) : Statement (.sh rs1 rs2 imm) :=
  of_funct3 1 0x23 (row_sh) rfl (encodeS_funct3 _ _ _ _ _) (encodeS_opcode _ _ _ _ _)

theorem row_sw : (⟨"SW", 0x0000707F, 0x00002023⟩ : TableRow) ∈ opcodeTable := by decide

theorem sw (rs1 rs2 : RegIdx) (imm : Word) : Statement (.sw rs1 rs2 imm) :=
  of_funct3 2 0x23 (row_sw) rfl (encodeS_funct3 _ _ _ _ _) (encodeS_opcode _ _ _ _ _)

theorem row_addi : (⟨"ADDI", 0x0000707F, 0x00000013⟩ : TableRow) ∈ opcodeTable := by decide

theorem addi (rd rs1 : RegIdx) (imm : Word) : Statement (.addi rd rs1 imm) :=
  of_funct3 0 0x13 (row_addi) rfl (encodeI_funct3 _ _ _ _ _) (encodeI_opcode _ _ _ _ _)

theorem row_slti : (⟨"SLTI", 0x0000707F, 0x00002013⟩ : TableRow) ∈ opcodeTable := by decide

theorem slti (rd rs1 : RegIdx) (imm : Word) : Statement (.slti rd rs1 imm) :=
  of_funct3 2 0x13 (row_slti) rfl (encodeI_funct3 _ _ _ _ _) (encodeI_opcode _ _ _ _ _)

theorem row_sltiu : (⟨"SLTIU", 0x0000707F, 0x00003013⟩ : TableRow) ∈ opcodeTable := by decide

theorem sltiu (rd rs1 : RegIdx) (imm : Word) : Statement (.sltiu rd rs1 imm) :=
  of_funct3 3 0x13 (row_sltiu) rfl (encodeI_funct3 _ _ _ _ _) (encodeI_opcode _ _ _ _ _)

theorem row_xori : (⟨"XORI", 0x0000707F, 0x00004013⟩ : TableRow) ∈ opcodeTable := by decide

theorem xori (rd rs1 : RegIdx) (imm : Word) : Statement (.xori rd rs1 imm) :=
  of_funct3 4 0x13 (row_xori) rfl (encodeI_funct3 _ _ _ _ _) (encodeI_opcode _ _ _ _ _)

theorem row_ori : (⟨"ORI", 0x0000707F, 0x00006013⟩ : TableRow) ∈ opcodeTable := by decide

theorem ori (rd rs1 : RegIdx) (imm : Word) : Statement (.ori rd rs1 imm) :=
  of_funct3 6 0x13 (row_ori) rfl (encodeI_funct3 _ _ _ _ _) (encodeI_opcode _ _ _ _ _)

theorem row_andi : (⟨"ANDI", 0x0000707F, 0x00007013⟩ : TableRow) ∈ opcodeTable := by decide

theorem andi (rd rs1 : RegIdx) (imm : Word) : Statement (.andi rd rs1 imm) :=
  of_funct3 7 0x13 (row_andi) rfl (encodeI_funct3 _ _ _ _ _) (encodeI_opcode _ _ _ _ _)

theorem row_add : (⟨"ADD", 0xFE00707F, 0x00000033⟩ : TableRow) ∈ opcodeTable := by decide

theorem add (rd rs1 rs2 : RegIdx) : Statement (.add rd rs1 rs2) :=
  of_funct7 0x0 0 0x33 (row_add) rfl (encodeR_funct7 _ _ _ _ _ _) (encodeR_funct3 _ _ _ _ _ _) (encodeR_opcode _ _ _ _ _ _)

theorem row_sub : (⟨"SUB", 0xFE00707F, 0x40000033⟩ : TableRow) ∈ opcodeTable := by decide

theorem sub (rd rs1 rs2 : RegIdx) : Statement (.sub rd rs1 rs2) :=
  of_funct7 0x20 0 0x33 (row_sub) rfl (encodeR_funct7 _ _ _ _ _ _) (encodeR_funct3 _ _ _ _ _ _) (encodeR_opcode _ _ _ _ _ _)

theorem row_sll : (⟨"SLL", 0xFE00707F, 0x00001033⟩ : TableRow) ∈ opcodeTable := by decide

theorem sll (rd rs1 rs2 : RegIdx) : Statement (.sll rd rs1 rs2) :=
  of_funct7 0x0 1 0x33 (row_sll) rfl (encodeR_funct7 _ _ _ _ _ _) (encodeR_funct3 _ _ _ _ _ _) (encodeR_opcode _ _ _ _ _ _)

theorem row_slt : (⟨"SLT", 0xFE00707F, 0x00002033⟩ : TableRow) ∈ opcodeTable := by decide

theorem slt (rd rs1 rs2 : RegIdx) : Statement (.slt rd rs1 rs2) :=
  of_funct7 0x0 2 0x33 (row_slt) rfl (encodeR_funct7 _ _ _ _ _ _) (encodeR_funct3 _ _ _ _ _ _) (encodeR_opcode _ _ _ _ _ _)

theorem row_sltu : (⟨"SLTU", 0xFE00707F, 0x00003033⟩ : TableRow) ∈ opcodeTable := by decide

theorem sltu (rd rs1 rs2 : RegIdx) : Statement (.sltu rd rs1 rs2) :=
  of_funct7 0x0 3 0x33 (row_sltu) rfl (encodeR_funct7 _ _ _ _ _ _) (encodeR_funct3 _ _ _ _ _ _) (encodeR_opcode _ _ _ _ _ _)

theorem row_xor : (⟨"XOR", 0xFE00707F, 0x00004033⟩ : TableRow) ∈ opcodeTable := by decide

theorem xor (rd rs1 rs2 : RegIdx) : Statement (.xor rd rs1 rs2) :=
  of_funct7 0x0 4 0x33 (row_xor) rfl (encodeR_funct7 _ _ _ _ _ _) (encodeR_funct3 _ _ _ _ _ _) (encodeR_opcode _ _ _ _ _ _)

theorem row_srl : (⟨"SRL", 0xFE00707F, 0x00005033⟩ : TableRow) ∈ opcodeTable := by decide

theorem srl (rd rs1 rs2 : RegIdx) : Statement (.srl rd rs1 rs2) :=
  of_funct7 0x0 5 0x33 (row_srl) rfl (encodeR_funct7 _ _ _ _ _ _) (encodeR_funct3 _ _ _ _ _ _) (encodeR_opcode _ _ _ _ _ _)

theorem row_sra : (⟨"SRA", 0xFE00707F, 0x40005033⟩ : TableRow) ∈ opcodeTable := by decide

theorem sra (rd rs1 rs2 : RegIdx) : Statement (.sra rd rs1 rs2) :=
  of_funct7 0x20 5 0x33 (row_sra) rfl (encodeR_funct7 _ _ _ _ _ _) (encodeR_funct3 _ _ _ _ _ _) (encodeR_opcode _ _ _ _ _ _)

theorem row_or : (⟨"OR", 0xFE00707F, 0x00006033⟩ : TableRow) ∈ opcodeTable := by decide

theorem or (rd rs1 rs2 : RegIdx) : Statement (.or rd rs1 rs2) :=
  of_funct7 0x0 6 0x33 (row_or) rfl (encodeR_funct7 _ _ _ _ _ _) (encodeR_funct3 _ _ _ _ _ _) (encodeR_opcode _ _ _ _ _ _)

theorem row_and : (⟨"AND", 0xFE00707F, 0x00007033⟩ : TableRow) ∈ opcodeTable := by decide

theorem and (rd rs1 rs2 : RegIdx) : Statement (.and rd rs1 rs2) :=
  of_funct7 0x0 7 0x33 (row_and) rfl (encodeR_funct7 _ _ _ _ _ _) (encodeR_funct3 _ _ _ _ _ _) (encodeR_opcode _ _ _ _ _ _)

end Sys2Proof.Laws.MatchesItsRow
end

