-- ==== Sys2Proof/Laws/Run.lean ====
section
/-! SUPPORT. Runs of the core, the loops of the Session Controller, and the independence of the
engine from what the Session Controller owns. -/

namespace Sys2Proof.Machine

/-! ## Runs -/

theorem core_run_zero (s : State) : core.run 0 s = .next s := rfl

theorem run_next (M : Host.Core) {s t : M.State} (k : Nat) (h : M.step s = .next t) :
    M.run (k + 1) s = M.run k t := by
  simp [Host.Core.run, h]

theorem run_fault (M : Host.Core) {s : M.State} {f : M.Fault} (k : Nat) (h : M.step s = .fault f) :
    M.run (k + 1) s = .fault f := by
  simp [Host.Core.run, h]

theorem core_run_next {s t : State} (k : Nat) (h : step s = .next t) :
    core.run (k + 1) s = core.run k t :=
  run_next core k h

theorem core_run_fault {s : State} {f : Fault} (k : Nat) (h : step s = .fault f) :
    core.run (k + 1) s = .fault f :=
  run_fault core k h

theorem pcInRange_iff (pc : Word) : pcInRange pc = true ↔ 0 ≤ pc.toInt ∧ pc.toInt ≤ 1023 := by
  have e : ((Config.imemWords : Nat) : Int) = 1024 := rfl
  simp only [pcInRange, Bool.and_eq_true, decide_eq_true_eq, e]
  omega

theorem halted_iff (s : State) : Halted s ↔ ¬ pcInRange s.pc = true := by
  simp [Halted]

/-! ## What the Session Controller owns does not take part in a step -/

/-- A change of a state that the engine does not see: registers, slots, pc and Instruction Store
stay, and it commutes with every write of the engine. -/
structure EngineBlind (f : State → State) : Prop where
  x : ∀ s i, (f s).x i = s.x i
  slot : ∀ s n, (f s).slot n = s.slot n
  pc : ∀ s, (f s).pc = s.pc
  imem : ∀ s, (f s).imem = s.imem
  setX : ∀ s i v, (f s).setX i v = f (s.setX i v)
  setSlot : ∀ s n v, (f s).setSlot n v = f (s.setSlot n v)
  setPc : ∀ s p, (f s).setPc p = f (s.setPc p)

/-- The outcome with its next state changed. -/
def mapNext (f : State → State) : Outcome → Outcome
  | .next t => .next (f t)
  | .fault a => .fault a
  | .refused r => .refused r

/-- The Session Controller's fields and the reports of a state replaced. -/
def withSession (b : List Word) (r : RunState) (q : List Report) (s : State) : State :=
  { s with breakpoints := b, runState := r, reports := q }

theorem engineBlind_setRunState (r : RunState) : EngineBlind (·.setRunState r) :=
  ⟨fun _ _ => rfl, fun _ _ => rfl, fun _ => rfl, fun _ => rfl, fun _ _ _ => rfl, fun _ _ _ => rfl,
    fun _ _ => rfl⟩

theorem engineBlind_withSession (b : List Word) (r : RunState) (q : List Report) :
    EngineBlind (withSession b r q) :=
  ⟨fun _ _ => rfl, fun _ _ => rfl, fun _ => rfl, fun _ => rfl, fun _ _ _ => rfl, fun _ _ _ => rfl,
    fun _ _ => rfl⟩

theorem exec_engineBlind {f : State → State} (h : EngineBlind f) (i : Instr) (s : State) :
    exec i (f s) = mapNext f (exec i s) := by
  have reg : ∀ (rd : RegIdx) (v : Except Fault Word),
      finishRegister (f s) rd v = mapNext f (finishRegister s rd v) := by
    intro rd v
    cases v with
    | ok v => simp only [finishRegister, mapNext, State.advance, h.setX, h.setPc, h.pc]
    | error a => rfl
  have jump : ∀ rd target, finishJump (f s) rd target = mapNext f (finishJump s rd target) := by
    intro rd target
    simp only [finishJump, mapNext, h.setX, h.setPc, h.pc]
  have branch : ∀ (c : Bool) (imm : Word),
      finishBranch (f s) c imm = mapNext f (finishBranch s c imm) := by
    intro c imm
    cases c <;> simp [finishBranch, mapNext, State.advance, h.setPc, h.pc]
  have store : ∀ r : Except Fault State,
      finishStore (r.map f) = mapNext f (finishStore r) := by
    intro r
    cases r with
    | ok t => simp only [Except.map, finishStore, mapNext, State.advance, h.setPc, h.pc]
    | error a => rfl
  have byte : ∀ a v, writeByte (f s) a v = (writeByte s a v).map f := by
    intro a v
    unfold writeByte
    cases checkIndex Config.dmemWords a <;> simp only [Except.map, h.slot, h.setSlot]
  have half : ∀ a v, writeHalf (f s) a v = (writeHalf s a v).map f := by
    intro a v
    unfold writeHalf
    cases checkIndex Config.dmemWords a <;> simp only [Except.map, h.slot, h.setSlot]
  have word : ∀ a v, writeWord (f s) a v = (writeWord s a v).map f := by
    intro a v
    unfold writeWord
    cases checkIndex Config.dmemWords a <;> simp only [Except.map, h.setSlot]
  cases i
  case lui | auipc => simp only [exec, execLui, execAuipc, h.pc, reg]
  case jal | jalr => simp only [exec, execJal, execJalr, jalTarget, jalrTarget, h.pc, h.x, jump]
  case beq | bne | blt | bge | bltu | bgeu =>
    simp only [exec, execBeq, execBne, execBlt, execBge, execBltu, execBgeu, h.x, branch]
  case lb | lh | lw | lbu | lhu =>
    simp only [exec, execLb, execLh, execLw, execLbu, execLhu, effectiveAddress, readByte, readHalf,
      readWord, h.x, h.slot, reg]
  case sb | sh | sw =>
    simp only [exec, execSb, execSh, execSw, effectiveAddress, h.x, byte, half, word, store]
  case addi | slti | sltiu | xori | ori | andi =>
    simp only [exec, execAddi, execSlti, execSltiu, execXori, execOri, execAndi, h.x, reg]
  case add | sub | sll | slt | sltu | xor | srl | sra | or | and =>
    simp only [exec, execAdd, execSub, execSll, execSlt, execSltu, execXor, execSrl, execSra, execOr,
      execAnd, h.x, reg]

theorem engineBlind_fetch {f : State → State} (h : EngineBlind f) (s : State) :
    fetch (f s) = fetch s := by
  rw [fetch, fetch, h.imem, h.pc]

/-- The Run State does not take part in a step. -/
theorem step_setRunState (s : State) (r : RunState) :
    step (s.setRunState r) = mapNext (·.setRunState r) (step s) := by
  rcases step_cases s with ⟨h, e⟩ | ⟨i, h, hd, e⟩ | ⟨er, h, hd, e⟩
  · rw [e]; exact step_halted (s := s.setRunState r) h
  · rw [e, ← exec_engineBlind (engineBlind_setRunState r)]
    exact step_ok (s := s.setRunState r) h hd
  · rw [e]; exact step_unsupported (s := s.setRunState r) h hd

/-! ## What the engine keeps of the Session Controller's state -/

/-- A next state has the Instruction Store, the Breakpoint Set and the Run State it had. -/
theorem step_keeps {s t : State} (h : step s = .next t) :
    t.imem = s.imem ∧ t.breakpoints = s.breakpoints ∧ t.runState = s.runState := by
  rcases step_cases s with ⟨-, e⟩ | ⟨i, -, -, e⟩ | ⟨er, -, -, e⟩
  · rw [e] at h; cases h; exact ⟨rfl, rfl, rfl⟩
  · rw [e] at h
    rcases exec_cases i s with ⟨rd, v, -, -, -, e'⟩ | ⟨rd, v, -, -, -, e'⟩ | ⟨v, -, -, -, e'⟩ |
        ⟨n, v, -, -, -, -, e'⟩ | ⟨a, -, -, e'⟩ <;> rw [e'] at h <;> cases h <;> exact ⟨rfl, rfl, rfl⟩
  · rw [e] at h; cases h; exact ⟨rfl, rfl, rfl⟩

/-! ## Loops -/

theorem loop_ended {turn : State → Turn} {s t : State} {r : Reply} (fuel : Nat)
    (h : turn s = .ended t r) : loop turn (fuel + 1) s = .returned t r := by
  rw [loop, h]

theorem loop_again {turn : State → Turn} {s t : State} (fuel : Nat) (h : turn s = .again t) :
    loop turn (fuel + 1) s = loop turn fuel t := by
  rw [loop, h]

theorem turnStep_next {s t : State} (f : State → Turn) (h : step s = .next t) :
    turnStep s f = f t := by
  rw [turnStep, h]

theorem turnStep_fault {s : State} {a : Int} (f : State → Turn)
    (h : step s = .fault (.invalidIndex a)) :
    turnStep s f = .ended (s.setRunState .idle) (.invalidIndex a) := by
  rw [turnStep, h]

/-- What holds at the start of a loop, and that every pass keeps, holds where the loop returns. -/
theorem loop_induction {turn : State → Turn} (P : State → Prop) (Q : State → Reply → Prop)
    (again : ∀ s t, P s → turn s = .again t → P t)
    (ended : ∀ s t r, P s → turn s = .ended t r → Q t r) :
    ∀ (fuel : Nat) (s t : State) (r : Reply), P s → loop turn fuel s = .returned t r → Q t r
  | 0, _, _, _, _, h => by simp [loop] at h
  | fuel + 1, s, t, r, hp, h => by
    rw [loop] at h
    split at h
    · exact loop_induction P Q again ended fuel _ t r (again _ _ hp ‹_›) h
    · cases h
      exact ended _ _ _ hp ‹_›

/-- More fuel gives a loop the same result. -/
theorem loop_more {turn : State → Turn} : ∀ {m n : Nat} {s t : State} {r : Reply}, m ≤ n →
    loop turn m s = .returned t r → loop turn n s = .returned t r
  | 0, _, _, _, _, _, h => by simp [loop] at h
  | m + 1, 0, _, _, _, hle, _ => by omega
  | m + 1, n + 1, s, t, r, hle, h => by
    rw [loop] at h ⊢
    split
    · rename_i e
      rw [e] at h
      exact loop_more (by omega) h
    · rename_i e
      rw [e] at h
      exact h

end Sys2Proof.Machine
end

