-- ==== Sys2Proof/Tests/Slice0.lean ====
section
/-! SUPPORT. Tests of the model, with results from the spec's own examples and vectors
(spec/95_test_vectors.md and the rules' examples), and the witnesses of the statements' hypotheses. -/

namespace Sys2Proof.Tests

open Sys2Proof Sys2Proof.Machine

/-! ## Helpers -/

/-- The next state of an outcome. -/
def nextOf : Outcome → Option State
  | .next t => some t
  | .fault _ | .refused _ => none

/-- The fault of an outcome. -/
def faultOf : Outcome → Option Fault
  | .fault f => some f
  | .next _ | .refused _ => none

/-- A decoding as an option. -/
def decoded (w : Word) : Option Instr := (decode w).toOption

/-- The reset state with the pc moved and one word there. -/
def demo (pc w : Word) : State := { State.reset with pc := pc, imem := Memory.write Config.imemFill [] pc.toNat w }

/-- What a step from s leaves, seen through f. -/
def after {α : Type} (s : State) (f : State → α) : Option α := (nextOf (step s)).map f

theorem eq_next_of {o : Outcome} {t : State} (h : nextOf o = some t) : o = .next t := by
  cases o <;> simp_all [nextOf]

theorem exists_next_of {o : Outcome} (h : (nextOf o).isSome = true) : ∃ t, o = .next t := by
  cases o <;> simp_all [nextOf]

theorem eq_fault_of {o : Outcome} {f : Fault} (h : faultOf o = some f) : o = .fault f := by
  cases o <;> simp_all [faultOf]

theorem eq_ok_of {w : Word} {i : Instr} (h : decoded w = some i) : decode w = .ok i := by
  unfold decoded at h
  cases hd : decode w <;> simp_all [Except.toOption]

theorem exists_error_of {w : Word} (h : decoded w = none) : ∃ e, decode w = .error e := by
  unfold decoded at h
  cases hd : decode w <;> simp_all [Except.toOption]

/-! ## WellFormed refuses an ill-formed term by each of its checks -/

theorem test_wf_imm12_above : (Instr.addi 1 1 2048).wellFormed = false := by decide
theorem test_wf_imm12_below : (Instr.sw 1 1 (-2049)).wellFormed = false := by decide
theorem test_wf_immB_above : (Instr.beq 1 1 4096).wellFormed = false := by decide
theorem test_wf_immB_below : (Instr.bgeu 1 1 (-4098)).wellFormed = false := by decide
theorem test_wf_immB_odd : (Instr.bne 1 1 3).wellFormed = false := by decide
theorem test_wf_immU_low_bits : (Instr.lui 1 0x1001).wellFormed = false := by decide
theorem test_wf_immJ_above : (Instr.jal 1 1048576).wellFormed = false := by decide
theorem test_wf_immJ_below : (Instr.jal 1 (-1048578)).wellFormed = false := by decide
theorem test_wf_immJ_odd : (Instr.jal 1 5).wellFormed = false := by decide
theorem test_wf_extremes :
    (Instr.jalr 0 31 (-2048)).wellFormed = true ∧ (Instr.lb 0 31 2047).wellFormed = true ∧
    (Instr.blt 0 31 (-4096)).wellFormed = true ∧ (Instr.bge 0 31 4094).wellFormed = true ∧
    (Instr.jal 0 (-1048576)).wellFormed = true ∧ (Instr.jal 31 1048574).wellFormed = true ∧
    (Instr.auipc 0 0xFFFFF000).wellFormed = true := by decide

/-! ## Every constructor's decoding, by the words of the rules' examples -/

/-- The words stand in the examples of R90, R91 and in spec/95_test_vectors.md. -/
theorem test_decode_upper_immediate :
    decoded 0x123452B7 = some (.lui 5 0x12345000) ∧
    decoded 0xFFFFF317 = some (.auipc 6 0xFFFFF000) := by decide

/-- The words stand in the examples of R95, R96 and in spec/95_test_vectors.md. -/
theorem test_decode_jumps :
    decoded 0xFFBFF0EF = some (.jal 1 (-6)) ∧
    decoded 0x3FA0006F = some (.jal 0 1018) ∧
    decoded 0x003280E7 = some (.jalr 1 5 3) := by decide

/-- The words stand in the examples of R101 to R106 and in spec/95_test_vectors.md. -/
theorem test_decode_branches :
    decoded 0x00208463 = some (.beq 1 2 8) ∧
    decoded 0xFE009FE3 = some (.bne 1 0 (-2)) ∧
    decoded 0x0020C463 = some (.blt 1 2 8) ∧
    decoded 0xFE20DEE3 = some (.bge 1 2 (-4)) ∧
    decoded 0x0020E463 = some (.bltu 1 2 8) ∧
    decoded 0x0020F463 = some (.bgeu 1 2 8) := by decide

/-- The words stand in the examples of R111 to R115 and in spec/95_test_vectors.md. -/
theorem test_decode_loads :
    decoded 0x00440383 = some (.lb 7 8 4) ∧
    decoded 0x00441383 = some (.lh 7 8 4) ∧
    decoded 0xFFF42383 = some (.lw 7 8 (-1)) ∧
    decoded 0x00444383 = some (.lbu 7 8 4) ∧
    decoded 0x00445383 = some (.lhu 7 8 4) := by decide

/-- The words stand in the examples of R121 to R123 and in spec/95_test_vectors.md. -/
theorem test_decode_stores :
    decoded 0xFE940EA3 = some (.sb 8 9 (-3)) ∧
    decoded 0x00941223 = some (.sh 8 9 4) ∧
    decoded 0x3E902FA3 = some (.sw 0 9 1023) := by decide

/-- The words stand in the examples of R126 to R131 and in spec/95_test_vectors.md. -/
theorem test_decode_alu_immediate :
    decoded 0xFFF00293 = some (.addi 5 0 (-1)) ∧
    decoded 0xFFF32293 = some (.slti 5 6 (-1)) ∧
    decoded 0x00533293 = some (.sltiu 5 6 5) ∧
    decoded 0xFFF34293 = some (.xori 5 6 (-1)) ∧
    decoded 0x00536293 = some (.ori 5 6 5) ∧
    decoded 0x80037293 = some (.andi 5 6 (-2048)) := by decide

/-- The words stand in the examples of R136 to R145 and in spec/95_test_vectors.md. -/
theorem test_decode_alu_register :
    decoded 0x002081B3 = some (.add 3 1 2) ∧
    decoded 0x407302B3 = some (.sub 5 6 7) ∧
    decoded 0x007312B3 = some (.sll 5 6 7) ∧
    decoded 0x007322B3 = some (.slt 5 6 7) ∧
    decoded 0x007332B3 = some (.sltu 5 6 7) ∧
    decoded 0x007342B3 = some (.xor 5 6 7) ∧
    decoded 0x007352B3 = some (.srl 5 6 7) ∧
    decoded 0x407352B3 = some (.sra 5 6 7) ∧
    decoded 0x007362B3 = some (.or 5 6 7) ∧
    decoded 0x007372B3 = some (.and 5 6 7) := by decide

/-- Immediate bit 11 alone, in the J and the B format (spec/95_test_vectors.md L2.2). -/
theorem test_decode_imm_bit11 :
    decoded 0x001000EF = some (.jal 1 2048) ∧ decoded 0x000000E3 = some (.beq 0 0 2048) := by decide

/-- The unsupported words of spec/95_test_vectors.md L2.4 to L2.10, one for each hole. -/
theorem test_decode_unsupported :
    [0x00000000, 0xFFFFFFFF, 0x0FF0000F, 0x00000073, 0x00100073, 0x00009067, 0x0020A463, 0x0020B463,
      0x00043383, 0x00446383, 0xFFF07383, 0x00943223, 0x00331293, 0x00335293, 0x40335293, 0x027302B3,
      0x407312B3, 0x407372B3, 0x807302B3].all (fun w => (decoded w).isNone) = true := by decide

/-- The host's numbering: one 32-bit word, bit 0 the least significant. -/
theorem test_table_word : decodeTableWord 32 0x002081B3 = some (.add 3 1 2) := by decide

/-- The encoder, on words of the spec. -/
theorem test_encode :
    encode (.jal 1 (-6)) = 0xFFBFF0EF ∧ encode (.bne 1 0 (-2)) = 0xFE009FE3 ∧
    encode (.sb 8 9 (-3)) = 0xFE940EA3 ∧ encode (.sra 5 6 7) = 0x407352B3 := by decide

/-- All five immediates of one word, by the row 0x407352B3 of L2.2. -/
theorem test_immediates :
    (decodeFields 0x407352B3).immI.toInt = 1031 ∧ (decodeFields 0x407352B3).immS.toInt = 1029 ∧
    (decodeFields 0x407352B3).immB.toInt = 3076 ∧ (decodeFields 0x407352B3).immU.toInt = 1081298944 ∧
    (decodeFields 0x407352B3).immJ.toInt = 220166 := by decide

/-- All five at their minimum, by the row 0x80000000 of L2.2. -/
theorem test_immediates_min :
    (decodeFields 0x80000000).immI.toInt = -2048 ∧ (decodeFields 0x80000000).immS.toInt = -2048 ∧
    (decodeFields 0x80000000).immB.toInt = -4096 ∧ (decodeFields 0x80000000).immU.toInt = -2147483648 ∧
    (decodeFields 0x80000000).immJ.toInt = -1048576 := by decide

/-- Rows of L2.1. -/
theorem test_sign_extend :
    (signExtendInt 0x17 4).toInt = 7 ∧ (signExtendInt 0x800 12).toInt = -2048 ∧
    (signExtendInt 0x0FFFFE 21).toInt = 1048574 ∧ (signExtendInt 0x8000 16).toInt = -32768 := by decide

/-! ## One step of each instruction (spec/95_test_vectors.md L2.3 to L2.9) -/

theorem test_lui :
    after (demo 0 0x800002B7) (fun t => (t.x 5, t.pc)) = some (0x80000000, 1) := by decide

theorem test_auipc_adds_the_index :
    after (demo 10 0xFFFFF317) (fun t => (t.x 6, t.pc)) = some (0xFFFFF00A, 11) := by decide

theorem test_jal_links_and_jumps :
    after (demo 10 0x004000EF) (fun t => (t.x 1, t.pc)) = some (11, 14) := by decide

theorem test_jal_out_of_range_links :
    after (demo 4 0xFFBFF0EF) (fun t => (t.x 1, t.pc)) = some (5, -2) := by decide

theorem test_jalr_clears_bit_zero :
    after ((demo 7 0x003280E7).setX 5 20) (fun t => (t.x 1, t.pc)) = some (8, 22) := by decide

theorem test_jalr_uses_the_old_base :
    after ((demo 3 0x000282E7).setX 5 100) (fun t => (t.x 5, t.pc)) = some (4, 100) := by decide

theorem test_beq :
    after (((demo 100 0x00208463).setX 1 5).setX 2 5) (fun t => t.pc) = some (108) := by decide

theorem test_bne :
    after (((demo 100 0x00209463).setX 1 5).setX 2 5) (fun t => t.pc) = some (101) := by decide

theorem test_blt :
    after (((demo 100 0x0020C463).setX 1 0xFFFFFFFF).setX 2 1) (fun t => t.pc) = some (108) := by decide

theorem test_bge :
    after (((demo 100 0x0020D463).setX 1 0xFFFFFFFF).setX 2 1) (fun t => t.pc) = some (101) := by decide

theorem test_bltu :
    after (((demo 100 0x0020E463).setX 1 0xFFFFFFFF).setX 2 1) (fun t => t.pc) = some (101) := by decide

theorem test_bgeu :
    after (((demo 100 0x0020F463).setX 1 0xFFFFFFFF).setX 2 1) (fun t => t.pc) = some (108) := by decide

theorem test_lb :
    after ((((demo 0 0x00440383).setX 8 96).setX 7 0xAAAAAAAA).setSlot 100 0xFFFF8080) (fun t => (t.x 7, t.pc)) = some (0xFFFFFF80, 1) := by decide

theorem test_lh :
    after ((((demo 0 0x00441383).setX 8 96).setX 7 0xAAAAAAAA).setSlot 100 0xFFFF8080) (fun t => (t.x 7, t.pc)) = some (0xFFFF8080, 1) := by decide

theorem test_lw :
    after ((((demo 0 0x00442383).setX 8 96).setX 7 0xAAAAAAAA).setSlot 100 0xFFFF8080) (fun t => (t.x 7, t.pc)) = some (0xFFFF8080, 1) := by decide

theorem test_lbu :
    after ((((demo 0 0x00444383).setX 8 96).setX 7 0xAAAAAAAA).setSlot 100 0xFFFF8080) (fun t => (t.x 7, t.pc)) = some (0x00000080, 1) := by decide

theorem test_lhu :
    after ((((demo 0 0x00445383).setX 8 96).setX 7 0xAAAAAAAA).setSlot 100 0xFFFF8080) (fun t => (t.x 7, t.pc)) = some (0x00008080, 1) := by decide

/-- L2.6: the address -1 faults, and 1024 does (R37). -/
theorem test_load_faults :
    faultOf (step (demo 0 0xFFF42383)) = some (.invalidIndex (-1)) ∧
    faultOf (step (demo 0 0x40002383)) = some (.invalidIndex 1024) := by decide

/-- L2.6: the highest slot. -/
theorem test_load_last_slot : after ((demo 0 0x3FF02383).setSlot 1023 0xCAFEF00D) (fun t => t.x 7) =
    some (0xCAFEF00D) := by decide

theorem test_sb :
    after ((((demo 0 0x00940223).setX 8 96).setX 9 0x12345678).setSlot 100 0xAAAAAAAA) (fun t => (t.slot 100, t.pc)) = some (0xAAAAAA78, 1) := by decide

theorem test_sh :
    after ((((demo 0 0x00941223).setX 8 96).setX 9 0x12345678).setSlot 100 0xAAAAAAAA) (fun t => (t.slot 100, t.pc)) = some (0xAAAA5678, 1) := by decide

theorem test_sw :
    after ((((demo 0 0x00942223).setX 8 96).setX 9 0x12345678).setSlot 100 0xAAAAAAAA) (fun t => (t.slot 100, t.pc)) = some (0x12345678, 1) := by decide

/-- L2.7: address -1 faults for each width. -/
theorem test_store_faults :
    faultOf (step ((demo 0 0xFE940EA3).setX 8 2)) = some (.invalidIndex (-1)) ∧
    faultOf (step ((demo 0 0xFE941EA3).setX 8 2)) = some (.invalidIndex (-1)) ∧
    faultOf (step (demo 0 0x40902023)) = some (.invalidIndex 1024) := by decide

theorem test_addi :
    after ((demo 0 0x80030293).setX 6 0x80000000) (fun t => (t.x 5, t.pc)) = some (0x7FFFF800, 1) := by decide

theorem test_slti :
    after ((demo 0 0x80032293).setX 6 0x80000000) (fun t => (t.x 5, t.pc)) = some (1, 1) := by decide

theorem test_sltiu :
    after ((demo 0 0x80033293).setX 6 0x80000000) (fun t => (t.x 5, t.pc)) = some (1, 1) := by decide

theorem test_xori :
    after ((demo 0 0x80034293).setX 6 0x80000000) (fun t => (t.x 5, t.pc)) = some (0x7FFFF800, 1) := by decide

theorem test_ori :
    after ((demo 0 0x80036293).setX 6 0x80000000) (fun t => (t.x 5, t.pc)) = some (0xFFFFF800, 1) := by decide

theorem test_andi :
    after ((demo 0 0x80037293).setX 6 0x80000000) (fun t => (t.x 5, t.pc)) = some (0x80000000, 1) := by decide

/-- L2.8: register 0 keeps what is written (R13). -/
theorem test_addi_x0 : after (demo 0 0x00500013) (fun t => t.x 0) = some (5) := by decide

/-- L2.8: -1 < 1 signed, and 4294967295 < 1 is false. -/
theorem test_sltiu_unsigned : after ((demo 0 0x00133293).setX 6 0xFFFFFFFF) (fun t => t.x 5) = some (0) := by
  decide

theorem test_add :
    after (((demo 0 0x007302B3).setX 6 0x80000001).setX 7 0xFFFFFFFF) (fun t => (t.x 5, t.pc)) = some (0x80000000, 1) := by decide

theorem test_sub :
    after (((demo 0 0x407302B3).setX 6 0x80000001).setX 7 0xFFFFFFFF) (fun t => (t.x 5, t.pc)) = some (0x80000002, 1) := by decide

theorem test_sll :
    after (((demo 0 0x007312B3).setX 6 0x80000001).setX 7 0xFFFFFFFF) (fun t => (t.x 5, t.pc)) = some (0x80000000, 1) := by decide

theorem test_slt :
    after (((demo 0 0x007322B3).setX 6 0x80000001).setX 7 0xFFFFFFFF) (fun t => (t.x 5, t.pc)) = some (1, 1) := by decide

theorem test_sltu :
    after (((demo 0 0x007332B3).setX 6 0x80000001).setX 7 0xFFFFFFFF) (fun t => (t.x 5, t.pc)) = some (1, 1) := by decide

theorem test_xor :
    after (((demo 0 0x007342B3).setX 6 0x80000001).setX 7 0xFFFFFFFF) (fun t => (t.x 5, t.pc)) = some (0x7FFFFFFE, 1) := by decide

theorem test_srl :
    after (((demo 0 0x007352B3).setX 6 0x80000001).setX 7 0xFFFFFFFF) (fun t => (t.x 5, t.pc)) = some (1, 1) := by decide

theorem test_sra :
    after (((demo 0 0x407352B3).setX 6 0x80000001).setX 7 0xFFFFFFFF) (fun t => (t.x 5, t.pc)) = some (0xFFFFFFFF, 1) := by decide

theorem test_or :
    after (((demo 0 0x007362B3).setX 6 0x80000001).setX 7 0xFFFFFFFF) (fun t => (t.x 5, t.pc)) = some (0xFFFFFFFF, 1) := by decide

theorem test_and :
    after (((demo 0 0x007372B3).setX 6 0x80000001).setX 7 0xFFFFFFFF) (fun t => (t.x 5, t.pc)) = some (0x80000001, 1) := by decide

/-- L2.9: a shift by 32 is a shift by 0. -/
theorem test_sll_by_32 :
    after (((demo 0 0x007312B3).setX 6 0x80000001).setX 7 32) (fun t => t.x 5) = some (0x80000001) := by decide

/-! ## Unsupported words and the end of the range (L2.10, L2.11) -/

theorem test_unsupported :
    after (demo 1023 0x00100073) (fun t => (t.pc, t.reports, t.dmem)) = some (1024, [⟨1023, 0x00100073⟩], []) ∧
    stepOutcome (demo 1023 0x00100073) = .unsupported 0x00100073 := by decide

theorem test_already_finished :
    nextOf (step { State.reset with pc := 1024 }) = some { State.reset with pc := 1024 } ∧
    stepOutcome { State.reset with pc := -2 } = .alreadyFinished := by decide

/-- The host's placing of a word runs it as the first instruction after reset. -/
theorem test_with_fetch_word :
    after (State.reset.withFetchWord 32 0x00500093) (fun t => (t.x 1, t.pc)) = some (5, 1) := by decide

/-! ## The Session Controller (S7, S8, P4, P5 of spec/95_test_vectors.md) -/

/-- Program P2 of L3. -/
def programP2 : List Word :=
  [0x00500093, 0x00000113, 0x00110133, 0xFFF08093, 0xFE009FE3, 0x00202823, 0x3FA0006F]

/-- A session on program P2, its replies. -/
def repliesP2 (cs : List Command) : Option (List Reply) :=
  (startSession programP2).map fun s => (session 40 cs s).1

/-- Rows 1 to 6 of P5. -/
theorem test_session_p5 :
    repliesP2 [.setBreakpoint 2, .setBreakpoint 2, .run, .run, .resume, .stepOne, .readPc, .readReg 2] =
    some [.breakpointAdded, .breakpointRejected, .breakpointHit 2, .breakpointHit 2, .breakpointHit 2,
      .stepped, .value 3, .value 9] := by decide

/-- P2 run to completion, and rows 14 to 19 of P5. -/
theorem test_session_p2 :
    repliesP2 [.run, .readSlot 16, .readPc, .readReg 0, .resume, .stepOne, .readReg 32] =
    some [.completion, .value 15, .value 1024, .value 7, .completion, .alreadyFinished,
      .invalidIndex 32] := by decide

/-- S7: the sixth breakpoint and a duplicate are rejected. -/
theorem test_breakpoint_limit :
    (session 1 [.setBreakpoint 1, .setBreakpoint 2, .setBreakpoint 3, .setBreakpoint 4, .setBreakpoint 5,
      .setBreakpoint 6, .setBreakpoint 3] State.reset).1 =
    [.breakpointAdded, .breakpointAdded, .breakpointAdded, .breakpointAdded, .breakpointAdded,
      .breakpointRejected, .breakpointRejected] := by decide

/-- P4: a run aborted by Invalid-Index leaves the pc at the faulting load and Idle. -/
theorem test_session_p4 :
    ((startSession [0x00100093, 0xFFF02383, 0x00200093]).map fun s =>
      ((session 9 [.run, .readPc, .readReg 1] s).1, (session 9 [.run] s).2.map (·.runState))) =
    some ([.invalidIndex (-1), .value 1, .value 1], some .idle) := by decide

/-- D15: a breakpoint at 1023 does not stop `continue`. -/
theorem test_continue_last_index :
    command 3 .resume ((demo 1022 0x00000013).addBreakpoint 1023) =
      .returned (((((demo 1022 0x00000013).addBreakpoint 1023).addReport ⟨1023, 0⟩).setPc 1024).setRunState
        .halted) .completion := by decide

/-! ## The Disassembler (L2.12, R154 to R161) -/

/-- The text of a word at a pc. -/
def text (w pc : Word) : String := disassemblyText (disassemble (decodeFields w) pc)

theorem test_text_alu :
    text 0x00500093 0 = "ADDI x1, x0, 5" ∧ text 0xFFF00293 0 = "ADDI x5, x0, -1" ∧
    text 0x407352B3 0 = "SRA x5, x6, x7" := by decide

theorem test_text_memory :
    text 0x00942223 0 = "SW x9, 4(x8)" ∧ text 0xFE940EA3 0 = "SB x9, -3(x8)" ∧
    text 0x00440383 0 = "LB x7, 4(x8)" := by decide

theorem test_text_transfers :
    text 0xFE009FE3 104 = "BNE x1, x0, 102" ∧ text 0x3FA0006F 6 = "JAL x0, 1024" ∧
    text 0xFFBFF0EF 2 = "JAL x1, -4" ∧ text 0x003280E7 0 = "JALR x1, x5, 3" := by decide

theorem test_text_upper_and_unsupported :
    text 0x123452B7 0 = "LUI x5, 305418240" ∧ text 0xFFFFF2B7 0 = "LUI x5, -4096" ∧
    text 0x00331293 0 = "UNSUPPORTED" := by decide

theorem test_trace_line :
    traceLine (demo 0 0x00500093) = some "PC: 0, ADDI x1, x0, 5" ∧
    traceLine (demo 0 0xFFF02383) = none := by decide

/-! ## Witnesses: for every statement with hypotheses, states and operands that meet them, one for
each clause and at the ends of its range -/

/-- A program's machine: ADDI x1, x0, 5 at the pc, which is a breakpoint. -/
def demoBp : State := (demo 0 0x00500093).addBreakpoint 0

/-- A load of the slot -1 at the pc. -/
def demoFault : State := demo 0 0xFFF02383

/-- A machine whose pc is just past the last index. -/
def demoHalted : State := { State.reset with pc := 1024 }

/-- A machine whose pc is negative. -/
def demoHaltedLow : State := { State.reset with pc := -1 }

theorem machineInv_demo : MachineInv (demo 0 0x00500093) :=
  ⟨by decide, by decide, by decide, by decide⟩

theorem witness_StepKeepsInvariant :
    MachineInv (demo 0 0x00500093) ∧ ∃ t, step (demo 0 0x00500093) = .next t :=
  ⟨machineInv_demo, exists_next_of (by decide)⟩

theorem witness_SessionKeepsInvariant :
    SessionInv (demo 1023 0x00500093) ∧
    ∃ t r, command 2 .run (demo 1023 0x00500093) = .returned t r ∧ t.runState = .halted :=
  ⟨⟨⟨by decide, by decide, by decide, by decide⟩, by unfold Halted; decide⟩,
    ((((demo 1023 0x00500093).setRunState .running).setX 1 5).setPc 1024).setRunState .halted,
    .completion, by decide, rfl⟩

theorem witness_EncodedInstructionsDecodeBack :
    (Instr.jal 31 (-1048576)).wellFormed = true ∧ (Instr.bgeu 0 31 4094).wellFormed = true ∧
    (Instr.sw 31 0 (-2048)).wellFormed = true ∧ (Instr.lui 0 0xFFFFF000).wellFormed = true ∧
    (Instr.and 31 0 31).wellFormed = true := by decide

theorem witness_SupportedWordsAreEncodings : decode 0xFE009FE3 = .ok (.bne 1 0 (-2)) :=
  eq_ok_of (by decide)

/-- A word that one row matches, and one that no row matches (R69). -/
theorem witness_DecoderAgreesWithOpcodeTable :
    (∃ r ∈ opcodeTable, matchesRow 0x002081B3 r = true ∧ r.mnemonic = "ADD") ∧
    (∀ r ∈ opcodeTable, matchesRow 0x027302B3 r = false) := by decide

/-- The narrowest and the widest width, each with its sign bit set and clear. -/
theorem witness_SignExtensionMasksThenExtends :
    ((3 : Int) % 2 ^ 1).toNat.testBit (1 - 1) = true ∧ ((2 : Int) % 2 ^ 1).toNat.testBit (1 - 1) = false ∧
    ((-1 : Int) % 2 ^ 32).toNat.testBit (32 - 1) = true ∧
    ((2 ^ 31 - 1 : Int) % 2 ^ 32).toNat.testBit (32 - 1) = false := by decide

/-- The first and the last index inside, and the two next to them outside. -/
theorem witness_RegisterAccessIsBoundsChecked :
    (0 ≤ (0 : Int) ∧ (0 : Int) < 32) ∧ (0 ≤ (31 : Int) ∧ (31 : Int) < 32) ∧
    ¬ (0 ≤ (-1 : Int) ∧ (-1 : Int) < 32) ∧ ¬ (0 ≤ (32 : Int) ∧ (32 : Int) < 32) := by decide

/-- A canonical memory, and the slot indices at and next to the ends. -/
theorem witness_AccessorsTouchOneSlot :
    (State.reset.setSlot 1023 7).dmem.wf Config.dmemReset Config.dmemWords = true ∧
    (0 ≤ (0 : Int) ∧ (0 : Int) < 1024) ∧ (0 ≤ (1023 : Int) ∧ (1023 : Int) < 1024) ∧
    ¬ (0 ≤ (-1 : Int) ∧ (-1 : Int) < 1024) ∧ ¬ (0 ≤ (1024 : Int) ∧ (1024 : Int) < 1024) := by decide

theorem witness_DataMemoryRoundTrips :
    (State.reset.setSlot 1023 7).dmem.wf Config.dmemReset Config.dmemWords = true ∧
    (0 ≤ (0 : Int) ∧ (0 : Int) ≤ 1023) ∧ (0 ≤ (1023 : Int) ∧ (1023 : Int) ≤ 1023) ∧
    ¬ (0 ≤ (-1 : Int) ∧ (-1 : Int) ≤ 1023) ∧ ¬ (0 ≤ (1024 : Int) ∧ (1024 : Int) ≤ 1023) := by decide

/-- The ends of the indices and of the immediates. -/
theorem witness_BoundsCheckIsTheSameForEveryWidth :
    (0 ≤ (0 : Int) ∧ (0 : Int) < 1024) ∧ (0 ≤ (1023 : Int) ∧ (1023 : Int) < 1024) ∧
    ¬ (0 ≤ (-1 : Int) ∧ (-1 : Int) < 1024) ∧ ¬ (0 ≤ (1024 : Int) ∧ (1024 : Int) < 1024) ∧
    (-2048 ≤ (-2048 : Word).toInt ∧ (-2048 : Word).toInt ≤ 2047) ∧
    (-2048 ≤ (2047 : Word).toInt ∧ (2047 : Word).toInt ≤ 2047) := by decide

theorem witness_WritesReplaceOnlyTheLowBitsOfOneSlot :
    (State.reset.setSlot 1023 7).dmem.wf Config.dmemReset Config.dmemWords = true ∧ InDataMemory 0 ∧
    InDataMemory 1023 := by unfold InDataMemory; decide

/-- The first and the last index that is fetched from. -/
theorem witness_StepExecutesTheDecodedInstruction :
    (0 ≤ (demo 0 0x00500093).pc.toInt ∧ (demo 0 0x00500093).pc.toInt ≤ 1023 ∧
      decode ((demo 0 0x00500093).imem.read Config.imemFill (demo 0 0x00500093).pc.toNat) = .ok (.addi 1 0 5)) ∧
    (0 ≤ (demo 1023 0x3FA0006F).pc.toInt ∧ (demo 1023 0x3FA0006F).pc.toInt ≤ 1023 ∧
      decode ((demo 1023 0x3FA0006F).imem.read Config.imemFill (demo 1023 0x3FA0006F).pc.toNat) = .ok (.jal 0 1018)) :=
  ⟨⟨by decide, by decide, eq_ok_of (by decide)⟩, ⟨by decide, by decide, eq_ok_of (by decide)⟩⟩

theorem witness_HaltedMachineNeverMoves :
    ¬ (0 ≤ demoHalted.pc.toInt ∧ demoHalted.pc.toInt ≤ 1023) ∧
    ¬ (0 ≤ demoHaltedLow.pc.toInt ∧ demoHaltedLow.pc.toInt ≤ 1023) := by decide

theorem witness_UnsupportedWordIsReportedAndSkipped :
    pcInRange (demo 1023 0x00100073).pc = true ∧ ∃ e, decode (fetch (demo 1023 0x00100073)) = .error e :=
  ⟨by decide, exists_error_of (by decide)⟩

/-- A load of -1 and a store to 1024. -/
theorem witness_StepFaultsExactlyOnABadAddress :
    (pcInRange demoFault.pc = true ∧ decode (fetch demoFault) = .ok (.lw 7 0 (-1)) ∧
      accessAddressOf demoFault (.lw 7 0 (-1)) = some (-1) ∧ ¬ InDataMemory (-1)) ∧
    (decode (fetch (demo 0 0x40902023)) = .ok (.sw 0 9 1024) ∧
      accessAddressOf (demo 0 0x40902023) (.sw 0 9 1024) = some 1024 ∧ ¬ InDataMemory 1024) ∧
    step demoFault = .fault (.invalidIndex (-1)) :=
  ⟨⟨by decide, eq_ok_of (by decide), by decide, by unfold InDataMemory; decide⟩,
    ⟨eq_ok_of (by decide), by decide, by unfold InDataMemory; decide⟩, eq_fault_of (by decide)⟩

/-- A state for each of the four outcomes. -/
theorem witness_StepOutcomeAgreesWithStep :
    stepOutcome (demo 0 0x00500093) = .ok ∧ stepOutcome demoFault = .invalidIndex (-1) ∧
    stepOutcome (demo 0 0x00100073) = .unsupported 0x00100073 ∧
    stepOutcome demoHalted = .alreadyFinished ∧ Halted demoHalted := by unfold Halted; decide

/-- A load of the last slot, a store to the first, and an instruction that forms no address. -/
theorem witness_EveryInstructionWritesOnlyItsTargets :
    State.reset.dmem.wf Config.dmemReset Config.dmemWords = true ∧
    (∀ a, accessAddressOf State.reset (.lw 7 0 1023) = some a → InDataMemory a) ∧
    (∀ a, accessAddressOf State.reset (.sb 0 9 0) = some a → InDataMemory a) ∧
    (∀ a, accessAddressOf State.reset (.beq 1 2 8) = some a → InDataMemory a) := by
  refine ⟨by decide, ?_, ?_, ?_⟩ <;> intro a h <;> revert h <;>
    simp [accessAddressOf, InDataMemory] <;> rintro rfl <;> decide

/-- The ends of the pc's range and of the U immediates. -/
theorem witness_UpperImmediateResults :
    pcInRange (demo 0 0).pc = true ∧ pcInRange (demo 1023 0).pc = true ∧ fitsImmU 0 = true ∧
    fitsImmU 0xFFFFF000 = true := by decide

/-- A state in which every branch condition holds of some two registers and fails of others. -/
theorem witness_BranchesGoByTheirComparison :
    (State.reset.setX 1 0xFFFFFFFF).x 1 ≠ (State.reset.setX 1 0xFFFFFFFF).x 2 ∧
    ((State.reset.setX 1 0xFFFFFFFF).x 1).toInt < ((State.reset.setX 1 0xFFFFFFFF).x 2).toInt ∧
    ((State.reset.setX 1 0xFFFFFFFF).x 1).toNat ≥ ((State.reset.setX 1 0xFFFFFFFF).x 2).toNat := by decide

/-- The first and the last slot. -/
theorem witness_LoadsDeliverTheirBits :
    InDataMemory (effectiveAddress State.reset 8 0) ∧ InDataMemory (effectiveAddress State.reset 8 1023) := by
  unfold InDataMemory; decide

theorem witness_StoresReplaceTheirBits :
    State.reset.dmem.wf Config.dmemReset Config.dmemWords = true ∧
    InDataMemory (effectiveAddress State.reset 8 0) ∧ InDataMemory (effectiveAddress State.reset 8 1023) := by
  unfold InDataMemory; decide

/-- The two indices next to the range, by a load and by a store. -/
theorem witness_LoadsAndStoresFaultOutside :
    (accessAddressOf State.reset (.lb 7 8 (-1)) = some (-1) ∧ ¬ InDataMemory (-1)) ∧
    (accessAddressOf State.reset (.sw 8 9 1024) = some 1024 ∧ ¬ InDataMemory 1024) := by
  unfold InDataMemory; decide

/-- Shift amounts 0 and 31, each also from a register with bits above bit 4. -/
theorem witness_ShiftResults :
    0 = (State.reset.x 7).toNat % 32 ∧ 31 = ((State.reset.setX 7 0xFFFFFFFF).x 7).toNat % 32 := by decide

/-- Halted; at a breakpoint; elsewhere with a next state; elsewhere with a fault. -/
theorem witness_RunStopsBeforeABreakpoint :
    Halted demoHalted ∧ (¬ Halted demoBp ∧ demoBp.pc ∈ demoBp.breakpoints) ∧
    (¬ Halted (demo 0 0x00500093) ∧ (demo 0 0x00500093).pc ∉ (demo 0 0x00500093).breakpoints ∧
      ∃ t, step (demo 0 0x00500093) = .next t) ∧
    (¬ Halted demoFault ∧ demoFault.pc ∉ demoFault.breakpoints ∧
      step demoFault = .fault (.invalidIndex (-1))) := by
  refine ⟨?_, ⟨?_, by decide⟩, ⟨?_, by decide, exists_next_of (by decide)⟩,
    ⟨?_, by decide, eq_fault_of (by decide)⟩⟩ <;> unfold Halted <;> decide

/-- Halted; at a breakpoint with a next state, in range and out of it; a fault. -/
theorem witness_StepCommandIgnoresBreakpoints :
    Halted demoHalted ∧ (¬ Halted demoBp ∧ step demoBp = .next ((demoBp.setX 1 5).setPc 1)) ∧
    (¬ Halted (demo 1023 0x00500093) ∧
      step (demo 1023 0x00500093) = .next (((demo 1023 0x00500093).setX 1 5).setPc 1024)) ∧
    (¬ Halted demoFault ∧ step demoFault = .fault (.invalidIndex (-1))) := by
  refine ⟨?_, ⟨?_, eq_next_of (by decide)⟩, ⟨?_, eq_next_of (by decide)⟩,
    ⟨?_, eq_fault_of (by decide)⟩⟩ <;> unfold Halted <;> decide

/-- Halted before; and after the step: Halted, at a breakpoint that stops it, at the one at 1023
that does not, at none; and a fault. -/
theorem witness_ContinueChecksAfterTheInstruction :
    Halted demoHalted ∧
    (∃ t, step (demo 1023 0x00500093) = .next t ∧ Halted t) ∧
    (∃ t, step ((demo 1021 0x00500093).addBreakpoint 1022) = .next t ∧ ¬ Halted t ∧
      t.pc ∈ t.breakpoints ∧ t.pc ≠ 1023) ∧
    (∃ t, step ((demo 1022 0x00500093).addBreakpoint 1023) = .next t ∧ ¬ Halted t ∧
      t.pc ∈ t.breakpoints ∧ t.pc = 1023) ∧
    (∃ t, step (demo 0 0x00500093) = .next t ∧ ¬ Halted t ∧ t.pc ∉ t.breakpoints) ∧
    (¬ Halted demoFault ∧ step demoFault = .fault (.invalidIndex (-1))) := by
  refine ⟨by unfold Halted; decide,
    ⟨((demo 1023 0x00500093).setX 1 5).setPc 1024, eq_next_of (by decide), by unfold Halted; decide⟩,
    ⟨(((demo 1021 0x00500093).addBreakpoint 1022).setX 1 5).setPc 1022, eq_next_of (by decide),
      by unfold Halted; decide, by decide, by decide⟩,
    ⟨(((demo 1022 0x00500093).addBreakpoint 1023).setX 1 5).setPc 1023, eq_next_of (by decide),
      by unfold Halted; decide, by decide, by decide⟩,
    ⟨((demo 0 0x00500093).setX 1 5).setPc 1, eq_next_of (by decide), by unfold Halted; decide, by decide⟩,
    by unfold Halted; decide, eq_fault_of (by decide)⟩

theorem witness_MoreFuelKeepsTheResult :
    1 ≤ 2 ∧ command 1 .stepOne demoBp =
      .returned ((((demoBp.setRunState .running).setX 1 5).setPc 1).setRunState .idle) .stepped := by
  decide

/-- Each of the three commands, aborted. -/
theorem witness_AbortedCommandFaultsAgain :
    Command.run ∈ [Command.run, .stepOne, .resume] ∧
    command 1 .run demoFault = .returned demoFault (.invalidIndex (-1)) ∧
    command 1 .stepOne demoFault = .returned demoFault (.invalidIndex (-1)) ∧
    command 1 .resume demoFault = .returned demoFault (.invalidIndex (-1)) := by decide

theorem witness_HaltedSessionKeepsProgramState :
    Halted demoHalted ∧ command 1 .resume demoHalted = .returned (demoHalted.setRunState .halted) .completion ∧
    Halted demoHaltedLow ∧ command 1 (.setBreakpoint 3) demoHaltedLow =
      .returned (demoHaltedLow.addBreakpoint 3) .breakpointAdded := by
  unfold Halted; decide

/-- A breakpoint set of four, then full. -/
def demoFour : State :=
  (((State.reset.addBreakpoint 1).addBreakpoint 2).addBreakpoint 3).addBreakpoint 4

/-- A duplicate, a sixth, and a fifth. -/
theorem witness_AddBreakpointRejectsSixthAndDuplicate :
    (4 : Word) ∈ demoFour.breakpoints ∧ 5 ≤ (demoFour.addBreakpoint 5).breakpoints.length ∧
    ((5 : Word) ∉ demoFour.breakpoints ∧ demoFour.breakpoints.length < 5) := by decide

theorem witness_InspectionCommandsArePure :
    (¬ (0 ≤ (-1 : Int) ∧ (-1 : Int) < 32) ∧ ¬ (0 ≤ (32 : Int) ∧ (32 : Int) < 32)) ∧
    (0 ≤ (0 : Int) ∧ (0 : Int) < 1024) ∧ (0 ≤ (1023 : Int) ∧ (1023 : Int) < 1024) ∧
    ¬ (0 ≤ (-1 : Int) ∧ (-1 : Int) < 1024) ∧ ¬ (0 ≤ (1024 : Int) ∧ (1024 : Int) < 1024) := by decide

/-- Two states that differ in all that the engine does not see, with a next state and with a fault. -/
theorem witness_EngineIgnoresTheSession :
    (SameEngineState (demo 0 0x00500093) ((demoBp.setRunState .halted).addReport ⟨1, 2⟩) ∧
      ∃ t, step (demo 0 0x00500093) = .next t) ∧
    (SameEngineState demoFault ((demoFault.addBreakpoint 7).setRunState .halted) ∧
      step demoFault = .fault (.invalidIndex (-1))) :=
  ⟨⟨⟨by decide, by decide, by decide, by decide⟩, exists_next_of (by decide)⟩,
    ⟨⟨by decide, by decide, by decide, by decide⟩, eq_fault_of (by decide)⟩⟩

/-- A step that stores, and a command. -/
theorem witness_InstructionStoreNeverChanges :
    (∃ t, Reaches 1 ((demo 0 0x00902023).setX 9 5) t ∧ t.slot 0 = 5) ∧
    command 1 .readPc demoBp = .returned demoBp (.value 0) := by
  refine ⟨⟨(((demo 0 0x00902023).setX 9 5).setSlot 0 5).setPc 1, ?_, by decide⟩, by decide⟩
  exact core_run_next 0 (eq_next_of (by decide))

theorem witness_DisassemblerMirrorsTheEngine :
    (∃ ops, disassemble (decodeFields 0x407352B3) 0 = .instruction "SRA" ops) ∧
    pcInRange (demo 1023 0x00331293).pc = true ∧
    disassemble (decodeFields (fetch (demo 1023 0x00331293))) 1023 = .unsupported :=
  ⟨⟨[.reg 5, .reg 6, .reg 7], by decide⟩, by decide, by decide⟩

/-- A jump to pc + 4, and a branch taken to pc - 2. -/
theorem witness_DisassembledTargetIsTheNextPc :
    (∃ t, exec (.jal 1 4) (demo 10 0) = .next t ∧ t.pc = 14) ∧
    (∃ t, exec (.beq 1 2 (-2)) (demo 10 0) = .next t ∧ t.pc = 8 ∧ t.pc ≠ (demo 10 0).pc + 1) :=
  ⟨⟨((demo 10 0).setX 1 11).setPc 14, eq_next_of (by decide), by decide⟩,
    ⟨(demo 10 0).setPc 8, eq_next_of (by decide), by decide, by decide⟩⟩

/-- Programs of 1024 and of 1025 words. -/
theorem witness_LoadedProgramIsInTheStore :
    (List.replicate 1024 (0x00500093 : Word)).length ≤ 1024 ∧
    1024 < (List.replicate 1025 (0x00500093 : Word)).length :=
  ⟨Nat.le_of_eq List.length_replicate, Nat.lt_of_lt_of_eq (by decide) List.length_replicate.symm⟩

/-- With the pc in range, and with the pc out of range. -/
theorem witness_PlacedWordRunsNext :
    State.reset.imem.wf Config.imemFill Config.imemWords = true ∧ decodeTableWord 32 0x002081B3 = some (.add 3 1 2) ∧
    pcInRange (demo 1023 0).pc = true ∧ pcInRange demoHalted.pc = false ∧
    demoHalted.imem.wf Config.imemFill Config.imemWords = true := by decide

/-- The premise of a safe run (Safety): one supported step from a small program. -/
theorem witness_SafeRun : SafeRun 1 (demo 0 0x00500093) :=
  ⟨((demo 0 0x00500093).setX 1 5).setPc 1, core_run_next 0 (eq_next_of (by decide)), by decide⟩

end Sys2Proof.Tests
end

section
/-! PROOFS. The state-level obligations: reset and the invariants (R21 to R26, R180), the Register
File (R12), what an instruction leaves unchanged (R14, R16, R82), and the independence of engine and
Session Controller (R23, R24, R45). -/

namespace Sys2Proof.Machine

/-! ## A step and the machine's invariant -/

theorem exec_keeps_dmem_wf {i : Instr} {s t : State} (h : exec i s = .next t)
    (hs : s.dmem.wf Config.dmemReset Config.dmemWords = true) :
    t.dmem.wf Config.dmemReset Config.dmemWords = true := by
  rcases exec_cases i s with ⟨rd, v, -, -, -, e⟩ | ⟨rd, target, -, -, -, e⟩ | ⟨target, -, -, -, e⟩ |
      ⟨n, v, hn, -, -, -, e⟩ | ⟨a, -, -, e⟩ <;> rw [e] at h <;> cases h
  case inr.inr.inr.inl => exact setSlot_dmem_wf v hs hn
  all_goals exact hs

theorem step_keeps_dmem_wf {s t : State} (h : step s = .next t)
    (hs : s.dmem.wf Config.dmemReset Config.dmemWords = true) :
    t.dmem.wf Config.dmemReset Config.dmemWords = true := by
  rcases step_cases s with ⟨-, e⟩ | ⟨i, -, -, e⟩ | ⟨er, -, -, e⟩ <;> rw [e] at h
  · cases h; exact hs
  · exact exec_keeps_dmem_wf h hs
  · cases h; exact hs

/-- Settles O3: of what the invariant speaks of, a step changes the Data Memory alone, and that by a
write inside its bounds. -/
theorem stepKeepsInvariant : Obligations.StepKeepsInvariant := by
  intro s t ⟨hdmem, himem, hlimit, hdistinct⟩ h
  obtain ⟨eimem, ebreak, -⟩ := step_keeps h
  exact ⟨step_keeps_dmem_wf h hdmem, eimem ▸ himem, ebreak ▸ hlimit, ebreak ▸ hdistinct⟩

/-! ## What a command keeps -/

/-- A pass goes on in a state with `P`, or ends the command in a state with `Q`. -/
def TurnKeeps (P Q : State → Prop) : Turn → Prop
  | .again t => P t
  | .ended t _ => Q t

/-- What makes `P` an invariant of the loops of `run`, `step` and `continue` that gives `Q` where
they return: no Run State and no step breaks `P`, and a command returns as Halted exactly with the
pc out of range (R180). -/
structure SessionRule (P Q : State → Prop) : Prop where
  setRunState : ∀ {s} r, P s → P (s.setRunState r)
  step : ∀ {s t}, P s → step s = .next t → P t
  returns : ∀ {s} r, P s → (r = .halted ↔ Halted s) → Q (s.setRunState r)

/-- Halted, as the loops test it. -/
theorem halted_iff_test (s : State) : Halted s ↔ (!pcInRange s.pc) = true := by
  simp [Halted]

section
variable {P Q : State → Prop}

theorem loop_keeps {turn : State → Turn} (hturn : ∀ s, P s → TurnKeeps P Q (turn s)) {fuel : Nat}
    {s t : State} {r : Reply} (hs : P s) (h : loop turn fuel s = .returned t r) : Q t :=
  loop_induction P (fun t _ => Q t)
    (fun s t hp e => by simpa [e, TurnKeeps] using hturn s hp)
    (fun s t r hp e => by simpa [e, TurnKeeps] using hturn s hp) fuel s t r hs h

theorem turnStep_keeps {s : State} {andThen : State → Turn}
    (next : ∀ t, step s = .next t → TurnKeeps P Q (andThen t)) (idle : Q (s.setRunState .idle)) :
    TurnKeeps P Q (turnStep s andThen) := by
  unfold turnStep
  split
  · exact next _ ‹_›
  · exact idle
  · exact idle

variable (rule : SessionRule P Q) {s : State} (hs : P s)
include rule hs

theorem SessionRule.halted (out : (!pcInRange s.pc) = true) : Q (s.setRunState .halted) :=
  rule.returns _ hs ⟨fun _ => (halted_iff_test s).mpr out, fun _ => rfl⟩

theorem SessionRule.notHalted {r : RunState} (hr : r ≠ .halted)
    (inside : ¬ (!pcInRange s.pc) = true) : Q (s.setRunState r) :=
  rule.returns r hs ⟨fun e => absurd e hr, fun e => absurd ((halted_iff_test s).mp e) inside⟩

theorem runTurn_keeps : TurnKeeps P Q (runTurn s) := by
  unfold runTurn
  split_ifs with out
  · exact rule.halted hs out
  · exact rule.notHalted hs (by decide) out
  · exact turnStep_keeps (fun t e => rule.step hs e) (rule.notHalted hs (by decide) out)

theorem continueCheck_keeps : TurnKeeps P Q (continueCheck s) := by
  unfold continueCheck
  split_ifs with out
  · exact rule.halted hs out
  · exact rule.notHalted hs (by decide) out
  · exact hs

theorem continueTurn_keeps : TurnKeeps P Q (continueTurn s) := by
  unfold continueTurn
  split_ifs with out
  · exact rule.halted hs out
  · exact turnStep_keeps (fun t e => continueCheck_keeps rule (rule.step hs e))
      (rule.notHalted hs (by decide) out)

theorem stepCheck_keeps : TurnKeeps P Q (stepCheck s) := by
  unfold stepCheck
  split_ifs with out
  · exact rule.halted hs out
  · exact rule.notHalted hs (by decide) out

theorem stepTurn_keeps : TurnKeeps P Q (stepTurn s) := by
  unfold stepTurn
  split_ifs with out
  · exact rule.halted hs out
  · have running := rule.setRunState .running hs
    exact turnStep_keeps (fun t e => stepCheck_keeps rule (rule.step running e))
      (rule.notHalted running (by decide) out)

end

/-! ### The commands without a loop -/

theorem addBreakpointCommand_rejected {s : State} {p : Word}
    (h : p ∈ s.breakpoints ∨ Config.maxBreakpoints ≤ s.breakpoints.length) :
    addBreakpointCommand s p = .returned s .breakpointRejected :=
  if_pos (by simpa using h)

theorem addBreakpointCommand_added {s : State} {p : Word}
    (hp : p ∉ s.breakpoints) (hl : s.breakpoints.length < Config.maxBreakpoints) :
    addBreakpointCommand s p = .returned (s.addBreakpoint p) .breakpointAdded :=
  if_neg (by simp [hp, hl])

/-- `b <pc>` returns the state as it was, or with a new member in a set that was not full (R186). -/
theorem addBreakpointCommand_returned {s t : State} {p : Word} {r : Reply}
    (h : addBreakpointCommand s p = .returned t r) :
    t = s ∨ (p ∉ s.breakpoints ∧ s.breakpoints.length < Config.maxBreakpoints ∧
      t = s.addBreakpoint p) := by
  by_cases c : p ∈ s.breakpoints ∨ Config.maxBreakpoints ≤ s.breakpoints.length
  · rw [addBreakpointCommand_rejected c] at h
    cases h; exact .inl rfl
  · obtain ⟨hp, hl⟩ := not_or.mp c
    rw [addBreakpointCommand_added hp (Nat.lt_of_not_le hl)] at h
    cases h; exact .inr ⟨hp, Nat.lt_of_not_le hl, rfl⟩

theorem inspect_returned {s t : State} {v : Except Fault Word} {r : Reply}
    (h : inspect s v = .returned t r) : t = s := by
  cases v <;> cases h <;> rfl

theorem insnCommand_returned {s t : State} {r : Reply} (h : insnCommand s = .returned t r) :
    t = s := by
  unfold insnCommand at h
  split at h <;> cases h <;> rfl

/-- Where a command returns: in a state that its loop's rule describes, in the state it began in, or
with one breakpoint more. -/
theorem command_returned {P Q : State → Prop} (rule : SessionRule P Q) {fuel : Nat} {c : Command}
    {s t : State} {r : Reply} (hs : P s) (h : command fuel c s = .returned t r) :
    Q t ∨ t = s ∨ ∃ p, p ∉ s.breakpoints ∧ s.breakpoints.length < Config.maxBreakpoints ∧
      t = s.addBreakpoint p := by
  cases c with
  | run => exact .inl (loop_keeps (fun _ => runTurn_keeps rule) (rule.setRunState .running hs) h)
  | stepOne => exact .inl (loop_keeps (fun _ => stepTurn_keeps rule) hs h)
  | resume => exact .inl (loop_keeps (fun _ => continueTurn_keeps rule) (rule.setRunState .running hs) h)
  | setBreakpoint p => exact .inr ((addBreakpointCommand_returned h).imp_right fun e => ⟨p, e⟩)
  | readInsn => exact .inr (.inl (insnCommand_returned h))
  | readReg n => exact .inr (.inl (inspect_returned h))
  | readSlot a => exact .inr (.inl (inspect_returned h))
  | exit => cases h
  | readPc | malformed | other => cases h; exact .inr (.inl rfl)

/-! ### The session's invariant -/

theorem machineInv_setRunState {s : State} (r : RunState) (h : MachineInv s) :
    MachineInv (s.setRunState r) :=
  ⟨h.dmem, h.imem, h.breakpointLimit, h.breakpointsDistinct⟩

theorem machineInv_addBreakpoint {s : State} {p : Word} (hp : p ∉ s.breakpoints)
    (hl : s.breakpoints.length < Config.maxBreakpoints) (h : MachineInv s) :
    MachineInv (s.addBreakpoint p) :=
  ⟨h.dmem, h.imem, hl, List.nodup_cons.mpr ⟨hp, h.breakpointsDistinct⟩⟩

theorem sessionRule_sessionInv : SessionRule MachineInv SessionInv where
  setRunState := machineInv_setRunState
  step := stepKeepsInvariant _ _
  returns r hs hr := ⟨machineInv_setRunState r hs, hr⟩

/-- Settles O4: each loop keeps the machine's invariant and sets the Run State by the pc where it
returns; the other commands keep the Run State and the pc. -/
theorem sessionKeepsInvariant : Obligations.SessionKeepsInvariant := by
  intro fuel c s t r hs h
  rcases command_returned sessionRule_sessionInv hs.toMachineInv h with ht | rfl | ⟨p, hp, hl, rfl⟩
  · exact ht
  · exact hs
  · exact ⟨machineInv_addBreakpoint hp hl hs.toMachineInv, hs.haltedIff⟩

/-! ### The Instruction Store -/

theorem sessionRule_imem (m : Memory) : SessionRule (·.imem = m) (·.imem = m) where
  setRunState _ hs := hs
  step hs h := (step_keeps h).1.trans hs
  returns _ hs _ := hs

theorem reaches_succ {k : Nat} {s t : State} (h : Reaches (k + 1) s t) :
    ∃ u, step s = .next u ∧ Reaches k u t := by
  unfold Reaches at h
  cases e : step s with
  | next u => exact ⟨u, rfl, (core_run_next k e).symm.trans h⟩
  | fault f => rw [core_run_fault k e] at h; cases h
  | refused r => simp [Host.Core.run, core, e] at h

/-- What every step keeps, any number of steps keeps. -/
theorem reaches_induction {P : State → Prop} (hstep : ∀ {s t}, P s → step s = .next t → P t) :
    ∀ {k : Nat} {s t : State}, P s → Reaches k s t → P t
  | 0, _, _, hs, h => by cases h; exact hs
  | _ + 1, _, _, hs, h => by
    obtain ⟨u, hu, hk⟩ := reaches_succ h
    exact reaches_induction hstep (hstep hs hu) hk

/-- Settles O43: no step changes the Instruction Store, so no run and no loop of a command does. -/
theorem instructionStoreNeverChanges : Obligations.InstructionStoreNeverChanges := by
  refine ⟨fun k s t h => reaches_induction (sessionRule_imem s.imem).step rfl h,
    fun fuel c s t r h => ?_⟩
  rcases command_returned (sessionRule_imem s.imem) rfl h with ht | rfl | ⟨p, -, -, rfl⟩
  · exact ht
  · rfl
  · rfl

/-! ## The Register File -/

theorem exists_regIdx {i : Int} (h : 0 ≤ i ∧ i < 32) : ∃ k : RegIdx, i = k.val :=
  ⟨⟨i.toNat, by omega⟩, (Int.toNat_of_nonneg h.1).symm⟩

theorem regRead_outside (s : State) {i : Int} (h : ¬ (0 ≤ i ∧ i < 32)) :
    regRead s i = .error (.invalidIndex i) := by
  rw [regRead, checkIndex_outside h]

theorem regWrite_outside (s : State) {i : Int} (v : Word) (h : ¬ (0 ≤ i ∧ i < 32)) :
    regWrite s i v = .error (.invalidIndex i) := by
  rw [regWrite, checkIndex_outside h]

/-- A register write shows at no other index, inside the bounds or outside. -/
theorem regRead_setX_ne (s : State) (k : RegIdx) (v : Word) {j : Int} (hj : j ≠ k.val) :
    regRead (s.setX k v) j = regRead s j := by
  by_cases inside : 0 ≤ j ∧ j < 32
  · obtain ⟨l, rfl⟩ := exists_regIdx inside
    have hl : l ≠ k := fun e => hj (by rw [e])
    rw [regRead_regIdx, regRead_regIdx, setX_x_ne s k l v hl]
  · rw [regRead_outside _ inside, regRead_outside _ inside]

/-- Settles O12: an index inside the bounds is a register, and outside them both accesses fail. -/
theorem registerAccessIsBoundsChecked : Obligations.RegisterAccessIsBoundsChecked := by
  intro s i v
  refine ⟨fun inside => ?_, fun outside => ⟨regWrite_outside s v outside, regRead_outside s outside⟩⟩
  obtain ⟨k, rfl⟩ := exists_regIdx inside
  refine ⟨s.setX k v, regWrite_regIdx s k v, ?_, fun j => regRead_setX_ne s k v⟩
  rw [regRead_regIdx, setX_x_same]

/-! ## Frames -/

theorem frame_refl (rd : Option RegIdx) (a : Option Int) (s : State) : Frame rd a s s :=
  ⟨fun _ _ => rfl, fun _ _ => rfl, rfl, rfl, rfl, rfl⟩

/-- A frame says nothing of the pc. -/
theorem Frame.setPc {rd : Option RegIdx} {a : Option Int} {s t : State} (h : Frame rd a s t)
    (p : Word) : Frame rd a s (t.setPc p) :=
  ⟨h.regs, h.slots, h.imem, h.breakpoints, h.runState, h.reports⟩

theorem frame_setX (a : Option Int) (s : State) (rd : RegIdx) (v : Word) :
    Frame (some rd) a s (s.setX rd v) where
  regs r hr := setX_x_ne s rd r v fun e => hr (congrArg some e.symm)
  slots _ _ := rfl
  imem := rfl
  breakpoints := rfl
  runState := rfl
  reports := rfl

theorem frame_setSlot (rd : Option RegIdx) {s : State}
    (hs : s.dmem.wf Config.dmemReset Config.dmemWords = true) (n : Nat) (v : Word) :
    Frame rd (some (n : Int)) s (s.setSlot n v) where
  regs _ _ := rfl
  slots k hk := by
    have hkn : k ≠ n := fun e => hk (by rw [e])
    rw [setSlot_slot hs, if_neg hkn]
  imem := rfl
  breakpoints := rfl
  runState := rfl
  reports := rfl

/-- Settles O23: each of the four ways to complete writes its one target and the pc, and an address
in range leaves out the fault. -/
theorem everyInstructionWritesOnlyItsTargets :
    Obligations.EveryInstructionWritesOnlyItsTargets := by
  intro i s hs inRange
  rcases exec_cases i s with ⟨rd, v, hd, ha, -, e⟩ | ⟨rd, target, hd, ha, ht, e⟩ |
      ⟨target, hd, ha, ht, e⟩ | ⟨n, v, -, hd, ha, -, e⟩ | ⟨a, ha, out, -⟩
  · rw [hd, ha]
    exact ⟨.inr rfl, _, e, (frame_setX none s rd v).setPc _, fun _ => rfl⟩
  · rw [hd, ha, ht]
    exact ⟨.inr rfl, _, e, (frame_setX none s rd _).setPc _, nofun⟩
  · rw [hd, ha, ht]
    exact ⟨.inl rfl, _, e, (frame_refl none none s).setPc _, nofun⟩
  · rw [hd, ha]
    exact ⟨.inl rfl, _, e, (frame_setSlot none hs n v).setPc _, fun _ => rfl⟩
  · exact absurd (inRange a ha) out

/-! ## The engine ignores the session -/

/-- Two states that agree on what the engine works on differ in the Session Controller's fields and
the reports alone. -/
theorem SameEngineState.eq_withSession {s t : State} (h : SameEngineState s t) :
    t = withSession t.breakpoints t.runState t.reports s := by
  cases s; cases t
  obtain ⟨rfl, rfl, rfl, rfl⟩ := h
  rfl

theorem sameEngineState_withSession (b : List Word) (r : RunState) (q : List Report) (s : State) :
    SameEngineState s (withSession b r q s) :=
  ⟨rfl, rfl, rfl, rfl⟩

section
variable (b : List Word) (r : RunState) (q : List Report)

theorem exec_withSession (i : Instr) (s : State) :
    exec i (withSession b r q s) = mapNext (withSession b r q) (exec i s) :=
  exec_engineBlind (engineBlind_withSession b r q) i s

theorem fetch_withSession (s : State) : fetch (withSession b r q s) = fetch s :=
  engineBlind_fetch (engineBlind_withSession b r q) s

theorem stepOutcome_withSession (s : State) :
    stepOutcome (withSession b r q s) = stepOutcome s := by
  unfold stepOutcome
  rw [fetch_withSession, show (withSession b r q s).pc = s.pc from rfl]
  cases decode (fetch s) with
  | error e => rfl
  | ok i =>
    simp only [exec_withSession]
    cases exec i s <;> rfl

/-- The step of a state with other session fields: the same, with those fields kept. Only the
reports may grow (R172). -/
theorem step_withSession (s : State) :
    ∃ q', step (withSession b r q s) = mapNext (withSession b r q') (step s) := by
  rcases step_cases s with ⟨h, e⟩ | ⟨i, h, hd, e⟩ | ⟨er, h, hd, e⟩ <;> rw [e]
  · exact ⟨q, step_halted (s := withSession b r q s) h⟩
  · refine ⟨q, ?_⟩
    rw [← exec_withSession]
    exact step_ok (s := withSession b r q s) h ((fetch_withSession b r q s).symm ▸ hd)
  · exact ⟨⟨s.pc, fetch s⟩ :: q,
      step_unsupported (s := withSession b r q s) h ((fetch_withSession b r q s).symm ▸ hd)⟩

end

/-- Settles O42: the second state is the first with other session fields, which a step ignores. -/
theorem engineIgnoresTheSession : Obligations.EngineIgnoresTheSession := by
  intro s₁ s₂ same
  rw [same.eq_withSession]
  obtain ⟨q', e⟩ := step_withSession s₂.breakpoints s₂.runState s₂.reports s₁
  refine ⟨(stepOutcome_withSession _ _ _ s₁).symm, fun t h => ?_, fun f h => ?_⟩
  · rw [h] at e
    exact ⟨_, e, sameEngineState_withSession _ _ _ t, rfl, rfl⟩
  · rw [h] at e
    exact e

/-! ## Reset and breakpoints -/

/-- Settles O1: only the registers need a reading rule; the rest is the definition of reset. -/
theorem resetStateAsSpecified : Obligations.ResetStateAsSpecified := by
  refine ⟨fun r => ?_, rfl, fun _ => rfl, fun _ => rfl, rfl, rfl, rfl⟩
  rw [x_eq]
  exact Vector.getElem_replicate r.isLt

/-- Settles O2: both memories and the Breakpoint Set are empty, and the pc 0 is in range. -/
theorem resetSatisfiesInvariant : Obligations.ResetSatisfiesInvariant where
  dmem := memory_wf_nil _
  imem := memory_wf_nil _
  breakpointLimit := Nat.zero_le _
  breakpointsDistinct := List.nodup_nil
  haltedIff := by
    have notHalted : ¬ Halted State.reset := (halted_iff _).not.mpr (not_not.mpr (by decide))
    exact ⟨nofun, fun h => absurd h notHalted⟩

/-- Settles O40: the command is `addBreakpointCommand` at any fuel. -/
theorem addBreakpointRejectsSixthAndDuplicate :
    Obligations.AddBreakpointRejectsSixthAndDuplicate := by
  intro fuel s p
  refine ⟨addBreakpointCommand_rejected, fun hp hl => ?_⟩
  exact ⟨_, addBreakpointCommand_added hp hl, fun q => List.mem_cons, rfl, rfl⟩

end Sys2Proof.Machine
end

section
/-! PROOFS. The Data Memory: the six accessors inside and outside the bounds (R31 to R37, R47), and
the step's one fault (R171, R175). -/

namespace Sys2Proof.Machine

/-! ## One slot written -/

/-- R37's bound as R47 writes it. -/
theorem inDataMemory_iff {a : Int} : InDataMemory a ↔ 0 ≤ a ∧ a ≤ 1023 :=
  and_congr_right fun _ => Int.lt_add_one_iff (b := 1023)

section
variable {s : State} (hs : s.dmem.wf Config.dmemReset Config.dmemWords = true)
include hs

theorem setSlot_slot_same (n : Nat) (v : Word) : (s.setSlot n v).slot n = v := by
  rw [setSlot_slot hs, if_pos rfl]

theorem setSlot_slot_ne {a : Int} (ha : InDataMemory a) (v : Word) (n : Nat) (hn : (n : Int) ≠ a) :
    (s.setSlot a.toNat v).slot n = s.slot n := by
  have hne : n ≠ a.toNat := fun e => hn (e ▸ Int.toNat_of_nonneg ha.1)
  rw [setSlot_slot hs, if_neg hne]

/-- A slot whose low k bits were replaced by those of v: the written bits and the kept ones (R35,
R36). -/
theorem setSlot_mergeLow_bit (n k : Nat) (v : Word) {i : Nat} (hi : i < 32) :
    ((s.setSlot n (mergeLow (s.slot n) (v.extractLsb' 0 k))).slot n).getLsbD i =
      if i < k then v.getLsbD i else (s.slot n).getLsbD i := by
  rw [setSlot_slot_same hs, mergeLow_bit _ _ _ hi, BitVec.getLsbD_extractLsb', Nat.zero_add]
  split <;> simp [*]

end

/-- Reading back the low bits that replaced a slot's. -/
theorem mergeLow_extractLsb' {k : Nat} (hk : k ≤ 32) (old : Word) (w : BitVec k) :
    (mergeLow old w).extractLsb' 0 k = w := by
  refine BitVec.eq_of_getLsbD_eq fun i hi => ?_
  rw [BitVec.getLsbD_extractLsb', Nat.zero_add, mergeLow_bit _ _ _ (by omega), if_pos hi]
  simp [hi]

theorem extractLsb'_zero_toNat (w : Word) (k : Nat) : (w.extractLsb' 0 k).toNat = w.toNat % 2 ^ k := by
  rw [BitVec.extractLsb'_toNat, Nat.shiftRight_zero]

/-! ## The accessors inside and outside the bounds -/

/-- Outside the bounds all six accessors fail alike: the check is on the index alone (R37). -/
theorem accessors_outside (s : State) {a : Int} (v : Word) (out : ¬ InDataMemory a) :
    readWord s a = .error (.invalidIndex a) ∧ readHalf s a = .error (.invalidIndex a) ∧
    readByte s a = .error (.invalidIndex a) ∧ writeWord s a v = .error (.invalidIndex a) ∧
    writeHalf s a v = .error (.invalidIndex a) ∧ writeByte s a v = .error (.invalidIndex a) :=
  ⟨readWord_outside out, readHalf_outside out, readByte_outside out, writeWord_outside v out,
    writeHalf_outside v out, writeByte_outside v out⟩

/-- Settles O13: inside the bounds an accessor is its operation on the slot `a`, and in a canonical
memory a write shows at that slot alone. -/
theorem accessorsTouchOneSlot : Obligations.AccessorsTouchOneSlot := by
  intro s a v hs
  refine ⟨fun inside => ⟨readWord_inside inside, ⟨_, readHalf_inside inside, extractLsb'_zero_toNat _ _⟩,
    ⟨_, readByte_inside inside, extractLsb'_zero_toNat _ _⟩, ?_⟩, fun outside => ?_⟩
  · refine ⟨_, writeWord_inside v inside, ?_, setSlot_slot_ne hs inside v⟩
    rw [readWord_inside inside, setSlot_slot_same hs]
  · obtain ⟨readW, readH, readB, writeW, -, -⟩ := accessors_outside s v outside
    exact ⟨readW, readH, readB, writeW⟩

/-- Settles O14: a read takes from the written slot the low bits that the write of its width put
there. -/
theorem dataMemoryRoundTrips : Obligations.DataMemoryRoundTrips := by
  intro s a v hs
  rw [← inDataMemory_iff]
  refine ⟨fun inside => ⟨⟨_, writeWord_inside v inside, ?_⟩, ⟨_, writeHalf_inside v inside, ?_⟩,
    ⟨_, writeByte_inside v inside, ?_⟩⟩, accessors_outside s v⟩
  · rw [readWord_inside inside, setSlot_slot_same hs]
  · rw [readHalf_inside inside, setSlot_slot_same hs, mergeLow_extractLsb' (by decide)]
  · rw [readByte_inside inside, setSlot_slot_same hs, mergeLow_extractLsb' (by decide)]

/-- Settles O16: each write replaces the slot by the merge of its width, whose bits are
`setSlot_mergeLow_bit`. -/
theorem writesReplaceOnlyTheLowBitsOfOneSlot : Obligations.WritesReplaceOnlyTheLowBitsOfOneSlot := by
  intro s a v hs inside
  have other := setSlot_slot_ne hs inside
  exact ⟨⟨_, writeWord_inside v inside, setSlot_slot_same hs _ v, other _, rfl, rfl⟩,
    ⟨_, writeHalf_inside v inside, fun _ hi => setSlot_mergeLow_bit hs _ 16 v hi, other _, rfl, rfl⟩,
    ⟨_, writeByte_inside v inside, fun _ hi => setSlot_mergeLow_bit hs _ 8 v hi, other _, rfl, rfl⟩⟩

/-! ## The address sum, wrapped or exact -/

/-- A sum that wraps lands at least 2^31 - 2048 away from the Data Memory, so it is outside like the
exact one (R37). -/
theorem add_toInt_inside_iff (x imm : Word) (himm : -2048 ≤ imm.toInt ∧ imm.toInt ≤ 2047) :
    (0 ≤ (x + imm).toInt ∧ (x + imm).toInt < 1024) ↔
      (0 ≤ x.toInt + imm.toInt ∧ x.toInt + imm.toInt < 1024) := by
  have hlow : -2 ^ 31 ≤ x.toInt := BitVec.le_toInt x
  have hhigh : x.toInt < 2 ^ 31 := BitVec.toInt_lt
  rw [BitVec.toInt_add, Int.bmod_def]
  split <;> omega

/-- Settles O15: every accessor has the one bounds check, and with a 12-bit immediate a sum that wraps
is outside the Data Memory in either form. -/
theorem boundsCheckIsTheSameForEveryWidth : Obligations.BoundsCheckIsTheSameForEveryWidth := by
  intro s a v
  refine ⟨fun inside => ?_, accessors_outside s v, fun base imm => ?_⟩
  · exact ⟨⟨_, readWord_inside inside⟩, ⟨_, readHalf_inside inside⟩, ⟨_, readByte_inside inside⟩,
      ⟨_, writeWord_inside v inside⟩, ⟨_, writeHalf_inside v inside⟩, ⟨_, writeByte_inside v inside⟩⟩
  · rw [effectiveAddress_eq]
    exact ⟨rfl, add_toInt_inside_iff (s.x base) imm⟩

/-! ## The step's one fault -/

/-- A load or a store whose address is outside the Data Memory faults with that address. -/
theorem exec_outside {i : Instr} {s : State} {a : Int} (ha : accessAddressOf s i = some a)
    (out : ¬ InDataMemory a) : exec i s = .fault (.invalidIndex a) := by
  cases i <;> cases ha
  case lb | lbu => simp only [exec, execLb, execLbu, readByte_outside out]; rfl
  case lh | lhu => simp only [exec, execLh, execLhu, readHalf_outside out]; rfl
  case lw => simp only [exec, execLw, readWord_outside out]; rfl
  case sb => simp only [exec, execSb, writeByte_outside _ out]; rfl
  case sh => simp only [exec, execSh, writeHalf_outside _ out]; rfl
  case sw => simp only [exec, execSw, writeWord_outside _ out]; rfl

theorem exec_fault_iff (i : Instr) (s : State) (f : Fault) :
    exec i s = .fault f ↔
      ∃ a, accessAddressOf s i = some a ∧ ¬ InDataMemory a ∧ f = .invalidIndex a := by
  constructor
  · intro h
    rcases exec_cases i s with ⟨_, _, -, -, -, e⟩ | ⟨_, _, -, -, -, e⟩ | ⟨_, -, -, -, e⟩ |
        ⟨_, _, -, -, -, -, e⟩ | ⟨a, ha, out, e⟩ <;> rw [e] at h <;> cases h
    exact ⟨a, ha, out, rfl⟩
  · rintro ⟨a, ha, out, rfl⟩
    exact exec_outside ha out

/-- Settles O20: of the three cases of a step only the execution of an instruction can fault. -/
theorem stepFaultsExactlyOnABadAddress : Obligations.StepFaultsExactlyOnABadAddress := by
  intro s f
  constructor
  · intro h
    rcases step_cases s with ⟨-, e⟩ | ⟨i, inRange, hd, e⟩ | ⟨_, -, -, e⟩ <;> rw [e] at h
    · cases h
    · obtain ⟨a, fault⟩ := (exec_fault_iff i s f).mp h
      exact ⟨inRange, i, a, hd, fault⟩
    · cases h
  · rintro ⟨inRange, i, a, hd, fault⟩
    rw [step_ok inRange hd]
    exact (exec_fault_iff i s f).mpr ⟨a, fault⟩

end Sys2Proof.Machine
end

section
/-! PROOFS. The Decoder and the encoder: the decision tree by family, the two round trips (R53, R57
to R68), the opcode table (R69, R70), and the sample words (R64 to R66). -/

namespace Sys2Proof

/-! ## The fields of a word, as bits -/

section
variable (w : Word)

@[simp] theorem decodeFields_opcode : (decodeFields w).opcode = w.extractLsb' 0 7 := rfl
@[simp] theorem decodeFields_rd : (decodeFields w).rd = regField (w.extractLsb' 7 5) := rfl
@[simp] theorem decodeFields_funct3 : (decodeFields w).funct3 = w.extractLsb' 12 3 := rfl
@[simp] theorem decodeFields_rs1 : (decodeFields w).rs1 = regField (w.extractLsb' 15 5) := rfl
@[simp] theorem decodeFields_rs2 : (decodeFields w).rs2 = regField (w.extractLsb' 20 5) := rfl
@[simp] theorem decodeFields_funct7 : (decodeFields w).funct7 = w.extractLsb' 25 7 := rfl
@[simp] theorem decodeFields_immI : (decodeFields w).immI = immIOf w := rfl
@[simp] theorem decodeFields_immS : (decodeFields w).immS = immSOf w := rfl
@[simp] theorem decodeFields_immB : (decodeFields w).immB = immBOf w := rfl
@[simp] theorem decodeFields_immU : (decodeFields w).immU = immUOf w := rfl
@[simp] theorem decodeFields_immJ : (decodeFields w).immJ = immJOf w := rfl

end

/-! ## The decision tree by opcode (R64) -/

section
variable {w : Word}

theorem decode_lui (h : w.extractLsb' 0 7 = 0x37) :
    decode w = .ok (.lui (regField (w.extractLsb' 7 5)) (immUOf w)) := by simp [decode, select, h]

theorem decode_auipc (h : w.extractLsb' 0 7 = 0x17) :
    decode w = .ok (.auipc (regField (w.extractLsb' 7 5)) (immUOf w)) := by simp [decode, select, h]

theorem decode_jal (h : w.extractLsb' 0 7 = 0x6F) :
    decode w = .ok (.jal (regField (w.extractLsb' 7 5)) (immJOf w)) := by simp [decode, select, h]

theorem decode_jalr (h : w.extractLsb' 0 7 = 0x67) : decode w = selectJalr (decodeFields w) := by
  simp [decode, select, h]

theorem decode_branch (h : w.extractLsb' 0 7 = 0x63) : decode w = selectBranch (decodeFields w) := by
  simp [decode, select, h]

theorem decode_load (h : w.extractLsb' 0 7 = 0x03) : decode w = selectLoad (decodeFields w) := by
  simp [decode, select, h]

theorem decode_store (h : w.extractLsb' 0 7 = 0x23) : decode w = selectStore (decodeFields w) := by
  simp [decode, select, h]

theorem decode_aluImm (h : w.extractLsb' 0 7 = 0x13) : decode w = selectAluImm (decodeFields w) := by
  simp [decode, select, h]

theorem decode_aluReg (h : w.extractLsb' 0 7 = 0x33) : decode w = selectAluReg (decodeFields w) := by
  simp [decode, select, h]

end

/-! ## Encoding, then decoding -/

/-- Settles O5: the opcode of an encoded word selects the family, its funct3 and funct7 the
instruction, and the format of the family gives back the operands. -/
theorem encodedInstructionsDecodeBack : Obligations.EncodedInstructionsDecodeBack := by
  intro i fits
  cases i
  case lui | auipc =>
    simp [encode, decode_lui, decode_auipc, immUOf_encodeU _ _ _ fits]
  case jal =>
    simp [encode, decode_jal, immJOf_encodeJ _ _ _ fits]
  case jalr =>
    simp [encode, decode_jalr, selectJalr, immIOf_encodeI _ _ _ _ _ fits]
  case beq | bne | blt | bge | bltu | bgeu =>
    simp [encode, decode_branch, selectBranch, immBOf_encodeB _ _ _ _ _ fits]
  case lb | lh | lw | lbu | lhu =>
    simp [encode, decode_load, selectLoad, immIOf_encodeI _ _ _ _ _ fits]
  case sb | sh | sw =>
    simp [encode, decode_store, selectStore, immSOf_encodeS _ _ _ _ _ fits]
  case addi | slti | sltiu | xori | ori | andi =>
    simp [encode, decode_aluImm, selectAluImm, immIOf_encodeI _ _ _ _ _ fits]
  case add | sub | sll | slt | sltu | xor | srl | sra | or | and =>
    simp [encode, decode_aluReg, selectAluReg, selectAluReg00]

/-! ## Decoding, then encoding -/

/-- The word is the one encoding of the instruction. -/
def IsEncodingOf (w : Word) (i : Instr) : Prop := i.wellFormed = true ∧ encode i = w

section
variable {w : Word} {op : BitVec 7} (hop : (decodeFields w).opcode = op)
include hop

theorem encodeU_decodeFields : encodeU op (decodeFields w).rd (decodeFields w).immU = w := by
  subst hop; exact encodeU_of_word w

theorem encodeJ_decodeFields : encodeJ op (decodeFields w).rd (decodeFields w).immJ = w := by
  subst hop; exact encodeJ_of_word w

variable {f3 : BitVec 3} (hf3 : (decodeFields w).funct3 = f3)
include hf3

theorem encodeI_decodeFields :
    encodeI f3 op (decodeFields w).rd (decodeFields w).rs1 (decodeFields w).immI = w := by
  subst hop hf3; exact encodeI_of_word w

theorem encodeS_decodeFields :
    encodeS f3 op (decodeFields w).rs1 (decodeFields w).rs2 (decodeFields w).immS = w := by
  subst hop hf3; exact encodeS_of_word w

theorem encodeB_decodeFields :
    encodeB f3 op (decodeFields w).rs1 (decodeFields w).rs2 (decodeFields w).immB = w := by
  subst hop hf3; exact encodeB_of_word w

theorem encodeR_decodeFields {f7 : BitVec 7} (hf7 : (decodeFields w).funct7 = f7) :
    encodeR f7 f3 op (decodeFields w).rd (decodeFields w).rs1 (decodeFields w).rs2 = w := by
  subst hop hf3 hf7; exact encodeR_of_word w

end

section
variable {w : Word} {i : Instr}

theorem selectJalr_isEncodingOf (hop : (decodeFields w).opcode = 0x67)
    (h : selectJalr (decodeFields w) = .ok i) : IsEncodingOf w i := by
  unfold selectJalr at h
  split at h <;> cases h
  exact ⟨fits_immIOf w, encodeI_decodeFields hop ‹_›⟩

theorem selectBranch_isEncodingOf (hop : (decodeFields w).opcode = 0x63)
    (h : selectBranch (decodeFields w) = .ok i) : IsEncodingOf w i := by
  unfold selectBranch at h
  split at h <;> cases h <;> exact ⟨fits_immBOf w, encodeB_decodeFields hop ‹_›⟩

theorem selectLoad_isEncodingOf (hop : (decodeFields w).opcode = 0x03)
    (h : selectLoad (decodeFields w) = .ok i) : IsEncodingOf w i := by
  unfold selectLoad at h
  split at h <;> cases h <;> exact ⟨fits_immIOf w, encodeI_decodeFields hop ‹_›⟩

theorem selectStore_isEncodingOf (hop : (decodeFields w).opcode = 0x23)
    (h : selectStore (decodeFields w) = .ok i) : IsEncodingOf w i := by
  unfold selectStore at h
  split at h <;> cases h <;> exact ⟨fits_immSOf w, encodeS_decodeFields hop ‹_›⟩

theorem selectAluImm_isEncodingOf (hop : (decodeFields w).opcode = 0x13)
    (h : selectAluImm (decodeFields w) = .ok i) : IsEncodingOf w i := by
  unfold selectAluImm at h
  split at h <;> cases h <;> exact ⟨fits_immIOf w, encodeI_decodeFields hop ‹_›⟩

theorem funct3_eq_seven (f3 : BitVec 3) (n0 : f3 ≠ 0) (n1 : f3 ≠ 1) (n2 : f3 ≠ 2) (n3 : f3 ≠ 3)
    (n4 : f3 ≠ 4) (n5 : f3 ≠ 5) (n6 : f3 ≠ 6) : f3 = 7 := by bv_omega

/-- All eight funct3 select an instruction: the last arm of the tree is funct3 = 7. -/
theorem selectAluReg00_isEncodingOf (hop : (decodeFields w).opcode = 0x33)
    (hf7 : (decodeFields w).funct7 = 0x00) : IsEncodingOf w (selectAluReg00 (decodeFields w)) := by
  unfold selectAluReg00
  split
  case h_8 n0 n1 n2 n3 n4 n5 n6 =>
    exact ⟨rfl, encodeR_decodeFields hop (funct3_eq_seven _ n0 n1 n2 n3 n4 n5 n6) hf7⟩
  all_goals exact ⟨rfl, encodeR_decodeFields hop ‹_› hf7⟩

theorem selectAluReg_isEncodingOf (hop : (decodeFields w).opcode = 0x33)
    (h : selectAluReg (decodeFields w) = .ok i) : IsEncodingOf w i := by
  unfold selectAluReg at h
  split at h
  case h_1 hf7 => cases h; exact selectAluReg00_isEncodingOf hop hf7
  case h_2 hf7 => split at h <;> cases h <;> exact ⟨rfl, encodeR_decodeFields hop ‹_› hf7⟩
  case h_3 => cases h

theorem decode_isEncodingOf (h : decode w = .ok i) : IsEncodingOf w i := by
  unfold decode select at h
  split at h
  case h_1 hop => cases h; exact ⟨fits_immUOf w, encodeU_decodeFields hop⟩
  case h_2 hop => cases h; exact ⟨fits_immUOf w, encodeU_decodeFields hop⟩
  case h_3 hop => cases h; exact ⟨fits_immJOf w, encodeJ_decodeFields hop⟩
  case h_4 hop => exact selectJalr_isEncodingOf hop h
  case h_5 hop => exact selectBranch_isEncodingOf hop h
  case h_6 hop => exact selectLoad_isEncodingOf hop h
  case h_7 hop => exact selectStore_isEncodingOf hop h
  case h_8 hop => exact selectAluImm_isEncodingOf hop h
  case h_9 hop => exact selectAluReg_isEncodingOf hop h
  case h_10 => cases h

end

/-- Settles O6: along each path of the decision tree the keys met are the opcode, funct3 and funct7
that the encoder puts back. -/
theorem supportedWordsAreEncodings : Obligations.SupportedWordsAreEncodings :=
  fun _ _ => decode_isEncodingOf

/-! ## The opcode table (R69) -/

open Laws.MatchesItsRow in
/-- The word of an instruction matches the row of its mnemonic. -/
theorem exists_row : ∀ i : Instr, Statement i
  | .lui rd imm => lui rd imm
  | .auipc rd imm => auipc rd imm
  | .jal rd imm => jal rd imm
  | .jalr rd rs1 imm => jalr rd rs1 imm
  | .beq rs1 rs2 imm => beq rs1 rs2 imm
  | .bne rs1 rs2 imm => bne rs1 rs2 imm
  | .blt rs1 rs2 imm => blt rs1 rs2 imm
  | .bge rs1 rs2 imm => bge rs1 rs2 imm
  | .bltu rs1 rs2 imm => bltu rs1 rs2 imm
  | .bgeu rs1 rs2 imm => bgeu rs1 rs2 imm
  | .lb rd rs1 imm => lb rd rs1 imm
  | .lh rd rs1 imm => lh rd rs1 imm
  | .lw rd rs1 imm => lw rd rs1 imm
  | .lbu rd rs1 imm => lbu rd rs1 imm
  | .lhu rd rs1 imm => lhu rd rs1 imm
  | .sb rs1 rs2 imm => sb rs1 rs2 imm
  | .sh rs1 rs2 imm => sh rs1 rs2 imm
  | .sw rs1 rs2 imm => sw rs1 rs2 imm
  | .addi rd rs1 imm => addi rd rs1 imm
  | .slti rd rs1 imm => slti rd rs1 imm
  | .sltiu rd rs1 imm => sltiu rd rs1 imm
  | .xori rd rs1 imm => xori rd rs1 imm
  | .ori rd rs1 imm => ori rd rs1 imm
  | .andi rd rs1 imm => andi rd rs1 imm
  | .add rd rs1 rs2 => add rd rs1 rs2
  | .sub rd rs1 rs2 => sub rd rs1 rs2
  | .sll rd rs1 rs2 => sll rd rs1 rs2
  | .slt rd rs1 rs2 => slt rd rs1 rs2
  | .sltu rd rs1 rs2 => sltu rd rs1 rs2
  | .xor rd rs1 rs2 => xor rd rs1 rs2
  | .srl rd rs1 rs2 => srl rd rs1 rs2
  | .sra rd rs1 rs2 => sra rd rs1 rs2
  | .or rd rs1 rs2 => or rd rs1 rs2
  | .and rd rs1 rs2 => and rd rs1 rs2

/-- Under a mask that covers a field, a word with the row's pattern has the pattern's field. -/
theorem field_of_matchesRow {w : Word} {r : TableRow} (h : matchesRow w r = true) (start len : Nat)
    (covers : r.mask.extractLsb' start len = BitVec.allOnes len) :
    w.extractLsb' start len = r.pattern.extractLsb' start len := by
  have masked : w &&& r.mask = r.pattern := beq_iff_eq.mp h
  rw [← masked, BitVec.extractLsb'_and, covers, BitVec.and_allOnes]

/-- The word is one of the row's instructions. -/
def DecodesAsRow (w : Word) (r : TableRow) : Prop :=
  ∃ i, decode w = .ok i ∧ mnemonicOf i = r.mnemonic

/-- The fields that a row's mask covers are the keys on the way to its instruction. -/
theorem decodesAsRow_of_matchesRow {w : Word} {r : TableRow} (hr : r ∈ opcodeTable)
    (h : matchesRow w r = true) : DecodesAsRow w r := by
  have hop := field_of_matchesRow h 0 7
  have hf3 := field_of_matchesRow h 12 3
  have hf7 := field_of_matchesRow h 25 7
  simp only [opcodeTable, List.mem_append] at hr
  obtain (((((upper | jump) | branch) | load) | store) | aluImm) | aluReg := hr
  · fin_cases upper
    · exact ⟨_, decode_lui (hop rfl), rfl⟩
    · exact ⟨_, decode_auipc (hop rfl), rfl⟩
  · fin_cases jump
    · exact ⟨_, decode_jal (hop rfl), rfl⟩
    · simp [DecodesAsRow, decode_jalr (hop rfl), selectJalr, hf3 rfl, mnemonicOf]
  · fin_cases branch <;>
      simp [DecodesAsRow, decode_branch (hop rfl), selectBranch, hf3 rfl, mnemonicOf]
  · fin_cases load <;> simp [DecodesAsRow, decode_load (hop rfl), selectLoad, hf3 rfl, mnemonicOf]
  · fin_cases store <;> simp [DecodesAsRow, decode_store (hop rfl), selectStore, hf3 rfl, mnemonicOf]
  · fin_cases aluImm <;>
      simp [DecodesAsRow, decode_aluImm (hop rfl), selectAluImm, hf3 rfl, mnemonicOf]
  · fin_cases aluReg <;>
      simp [DecodesAsRow, decode_aluReg (hop rfl), selectAluReg, selectAluReg00, hf3 rfl, hf7 rfl,
        mnemonicOf]

/-- A word that decodes is an encoding (O6), and an encoding matches its row. -/
theorem decode_error_of_no_row {w : Word} (h : ∀ r ∈ opcodeTable, matchesRow w r = false) :
    ∃ e, decode w = .error e := by
  cases hd : decode w with
  | error e => exact ⟨e, rfl⟩
  | ok i =>
    obtain ⟨-, rfl⟩ := decode_isEncodingOf hd
    obtain ⟨r, hr, -, hm⟩ := exists_row i
    exact absurd hm (Bool.eq_false_iff.mp (h r hr))

/-- The 34 mnemonics are distinct. -/
theorem row_eq_of_mnemonic {r r' : TableRow} (hr : r ∈ opcodeTable) (hr' : r' ∈ opcodeTable)
    (h : r.mnemonic = r'.mnemonic) : r = r' :=
  have distinct : (opcodeTable.map TableRow.mnemonic).Nodup := by decide
  List.inj_on_of_nodup_map distinct hr hr' h

/-- Settles O7: a matching row fixes the keys that select its instruction; conversely a word that
decodes matches a row; and two rows that match one word bear its one mnemonic. -/
theorem decoderAgreesWithOpcodeTable : Obligations.DecoderAgreesWithOpcodeTable := by
  intro w
  refine ⟨fun r hr h => decodesAsRow_of_matchesRow hr h, decode_error_of_no_row,
    fun r hr r' hr' h h' => row_eq_of_mnemonic hr hr' ?_⟩
  obtain ⟨i, hd, hi⟩ := decodesAsRow_of_matchesRow hr h
  obtain ⟨i', hd', hi'⟩ := decodesAsRow_of_matchesRow hr' h'
  have same : i = i' := Except.ok.inj (hd.symm.trans hd')
  rw [← hi, ← hi', same]

/-- Settles O8: the decoder computes on each word. -/
theorem sampleWordsDecode : Obligations.SampleWordsDecode :=
  ⟨rfl, rfl, rfl, rfl, rfl, rfl, rfl, rfl, rfl, rfl, rfl, rfl⟩

theorem extractLsb'_toNat_eq_div_mod (w : Word) (start len : Nat) :
    (w.extractLsb' start len).toNat = w.toNat / 2 ^ start % 2 ^ len := by
  rw [BitVec.extractLsb'_toNat, Nat.shiftRight_eq_div_pow]

/-- Settles O9: a run of bits is a quotient and a remainder of the word read as a number. -/
theorem fieldsAreTheNamedBits : Obligations.FieldsAreTheNamedBits := by
  intro w
  have field := extractLsb'_toNat_eq_div_mod w
  exact ⟨Machine.extractLsb'_zero_toNat w 7, field 7 5, field 12 3, field 15 5, field 20 5, field 25 7⟩

end Sys2Proof
end

section
/-! PROOFS. Sign extension (R56) and the immediates (R57 to R61): where each bit comes from, the
ranges and the signs. -/

namespace Sys2Proof

/-! ## Sign extension -/

/-- The masked integer is the value's number. -/
theorem emod_two_pow_eq_toNat (v : Int) (n : Nat) : v % 2 ^ n = (BitVec.ofInt n v).toNat := by
  rw [BitVec.toNat_ofInt, Int.toNat_of_nonneg (Int.emod_nonneg _ (by positivity))]
  push_cast; rfl

theorem sext_eq_signExtendInt {n : Nat} (b : BitVec n) : sext b = signExtendInt b.toNat n := by
  rw [signExtendInt, BitVec.ofInt_natCast, BitVec.ofNat_toNat, BitVec.setWidth_eq]

/-- Bits below the width are the value's, the others its sign bit. -/
theorem sext_bit {n : Nat} (v : BitVec n) {i : Nat} (hi : i < 32) :
    (sext v).getLsbD i = if i < n then v.getLsbD i else v.msb := by
  rw [sext, BitVec.getLsbD_signExtend, decide_eq_true hi, Bool.true_and]

section
variable {n : Nat} {v : BitVec n}

theorem sext_of_msb_false (h : v.msb = false) : sext v = v.setWidth 32 :=
  BitVec.signExtend_eq_setWidth_of_msb_false h

theorem sext_of_msb_true (h : v.msb = true) : sext v = v.setWidth 32 ||| (0xFFFFFFFF#32 <<< n) := by
  refine BitVec.eq_of_getLsbD_eq fun i hi => ?_
  rw [sext_bit v hi, h, BitVec.getLsbD_or, BitVec.getLsbD_setWidth, BitVec.getLsbD_shiftLeft,
    show (0xFFFFFFFF#32) = BitVec.allOnes 32 from rfl, BitVec.getLsbD_allOnes]
  split
  · simp [*]
  · have inside : i - n < 32 := by omega
    simp [*]

theorem sext_toInt (hn : n ≤ 32) : (sext v).toInt = if v.msb then (v.toNat : Int) - 2 ^ n else v.toNat := by
  rw [sext, BitVec.toInt_signExtend_of_le hn, BitVec.toInt_eq_msb_cond]
  push_cast; rfl

end

/-- Settles O10: the masked integer is an n-bit value, whose sign bit is the top one. -/
theorem signExtensionMasksThenExtends : Obligations.SignExtensionMasksThenExtends := by
  refine ⟨fun v n _ hn => ?_, fun n b => sext_eq_signExtendInt b, by decide, by decide, by decide⟩
  rw [emod_two_pow_eq_toNat, Int.toNat_natCast, BitVec.testBit_toNat, ← BitVec.msb_eq_getLsbD_last,
    BitVec.ofInt_natCast, BitVec.ofNat_toNat, signExtendInt, sext_toInt hn]
  split
  · exact ⟨sext_of_msb_true ‹_›, rfl⟩
  · exact ⟨sext_of_msb_false (Bool.eq_false_iff.mpr ‹_›), rfl⟩

/-! ## The bits of the immediates -/

section
variable (w : Word) {i : Nat} (hi : i < 32)
include hi

theorem immIOf_bit :
    (immIOf w).getLsbD i = if i < 11 then w.getLsbD (20 + i) else w.getLsbD 31 := by
  rw [immIOf, sext_bit _ hi, BitVec.msb_eq_getLsbD_last]
  interval_cases i <;> simp

theorem immSOf_bit :
    (immSOf w).getLsbD i =
      if i < 5 then w.getLsbD (7 + i) else if i < 11 then w.getLsbD (20 + i) else w.getLsbD 31 := by
  rw [immSOf, sext_bit _ hi, BitVec.msb_eq_getLsbD_last]
  simp only [BitVec.getLsbD_append]
  interval_cases i <;> simp

theorem immBOf_bit :
    (immBOf w).getLsbD i =
      if i = 0 then false else if i < 5 then w.getLsbD (7 + i) else if i < 11 then w.getLsbD (20 + i)
        else if i = 11 then w.getLsbD 7 else w.getLsbD 31 := by
  rw [immBOf, sext_bit _ hi, BitVec.msb_eq_getLsbD_last]
  simp only [BitVec.getLsbD_append]
  interval_cases i <;> simp

theorem immUOf_bit : (immUOf w).getLsbD i = if i < 12 then false else w.getLsbD i := by
  rw [immUOf, BitVec.getLsbD_and]
  interval_cases i <;> simp

theorem immJOf_bit :
    (immJOf w).getLsbD i =
      if i = 0 then false else if i < 11 then w.getLsbD (20 + i) else if i = 11 then w.getLsbD 20
        else if i < 20 then w.getLsbD i else w.getLsbD 31 := by
  rw [immJOf, sext_bit _ hi, BitVec.msb_eq_getLsbD_last]
  simp only [BitVec.getLsbD_append]
  interval_cases i <;> simp

end

/-! ## Their ranges and signs -/

theorem toInt_emod_two {imm : Word} (h : imm.getLsbD 0 = false) : imm.toInt % 2 = 0 := by
  have even : imm.toNat % 2 = 0 := by simpa [BitVec.getLsbD, Nat.testBit_zero] using h
  rw [BitVec.toInt_eq_toNat_cond]
  split <;> omega

section
variable {imm : Word}

theorem fitsImm12_range (h : fitsImm12 imm = true) : -2048 ≤ imm.toInt ∧ imm.toInt ≤ 2047 := by
  simpa [fitsImm12] using h

theorem fitsImmB_range (h : fitsImmB imm = true) :
    -4096 ≤ imm.toInt ∧ imm.toInt ≤ 4094 ∧ imm.toInt % 2 = 0 := by
  simp only [fitsImmB, Bool.and_eq_true, decide_eq_true_eq, Bool.not_eq_true'] at h
  obtain ⟨⟨low, high⟩, even⟩ := h
  exact ⟨low, high, toInt_emod_two even⟩

theorem fitsImmJ_range (h : fitsImmJ imm = true) :
    -1048576 ≤ imm.toInt ∧ imm.toInt ≤ 1048574 ∧ imm.toInt % 2 = 0 := by
  simp only [fitsImmJ, Bool.and_eq_true, decide_eq_true_eq, Bool.not_eq_true'] at h
  obtain ⟨⟨low, high⟩, even⟩ := h
  exact ⟨low, high, toInt_emod_two even⟩

end

section
variable (w : Word)

/-- The low 12 bits are cleared by a shift right and back. -/
theorem immUOf_toNat : (immUOf w).toNat = w.toNat / 2 ^ 12 * 4096 := by
  have shifted : immUOf w = w >>> 12 <<< 12 := by
    rw [BitVec.shiftLeft_ushiftRight]; rfl
  rw [shifted, BitVec.toNat_shiftLeft, BitVec.toNat_ushiftRight, Nat.shiftRight_eq_div_pow,
    Nat.shiftLeft_eq]
  omega

theorem immUOf_toInt_neg : (immUOf w).toInt < 0 ↔ w.getLsbD 31 = true := by
  have sign : w.getLsbD 31 = w.msb := (BitVec.msb_eq_getLsbD_last w).symm
  rw [sign, BitVec.msb_eq_true_iff_two_mul_ge, BitVec.toInt_neg_iff, immUOf_toNat]
  omega

theorem immUOf_range : -2 ^ 31 ≤ (immUOf w).toInt ∧ (immUOf w).toInt ≤ 2 ^ 31 - 4096 ∧
    (immUOf w).toInt % 4096 = 0 := by
  have below := w.isLt
  rw [BitVec.toInt_eq_toNat_cond, immUOf_toNat]
  split <;> omega

end

/-- Settles O11: the bits by format, the ranges from what fits each format, and immU as a multiple of
4096. -/
theorem immediatesTakeTheirBits : Obligations.ImmediatesTakeTheirBits := by
  intro w
  refine ⟨fun i hi => ⟨?_, ?_, ?_, ?_, ?_⟩, sext_eq_signExtendInt _, fitsImm12_range (fits_immIOf w), fitsImm12_range (fits_immSOf w),
    fitsImmB_range (fits_immBOf w), fitsImmJ_range (fits_immJOf w), rfl, BitVec.signExtend_eq _,
    immUOf_toNat w, immUOf_toInt_neg w, immUOf_range w⟩
  · exact immIOf_bit w hi
  · exact immSOf_bit w hi
  · exact immBOf_bit w hi
  · exact immUOf_bit w hi
  · exact immJOf_bit w hi

end Sys2Proof
end

section
/-! PROOFS. What the decoder's answer means to the step (R172), to LUI and AUIPC (R90, R91), and to
the Disassembler (R150, R152, R161). -/

namespace Sys2Proof.Machine

/-! ## Unsupported words -/

theorem stepOutcome_unsupported {s : State} {e : DecodeError} (inRange : pcInRange s.pc = true)
    (hd : decode (fetch s) = .error e) : stepOutcome s = .unsupported (fetch s) := by
  rw [stepOutcome, if_pos inRange, hd]

/-- A supported word is not reported, whatever its instruction does. -/
theorem stepOutcome_ne_unsupported {s : State} {i : Instr} (inRange : pcInRange s.pc = true)
    (hd : decode (fetch s) = .ok i) (w : Word) : stepOutcome s ≠ .unsupported w := by
  rw [stepOutcome, if_pos inRange, hd]
  rcases exec_cases i s with ⟨_, _, -, -, -, e⟩ | ⟨_, _, -, -, -, e⟩ | ⟨_, -, -, -, e⟩ |
      ⟨_, _, -, -, -, -, e⟩ | ⟨_, -, -, e⟩ <;> simp [e]

/-- Settles O19: the next state is the one with the report, advanced, and neither update touches
anything else. -/
theorem unsupportedWordIsReportedAndSkipped : Obligations.UnsupportedWordIsReportedAndSkipped := by
  intro s e inRange hd
  exact ⟨stepOutcome_unsupported inRange hd, _, step_unsupported inRange hd,
    fun _ => rfl, fun _ => rfl, rfl, rfl, rfl, rfl, rfl⟩

/-! ## LUI and AUIPC -/

/-- An instruction that writes one register and goes on. -/
theorem registerResult_finishRegister (s : State) (rd : RegIdx) {v : Word} {result : Word → Prop}
    (h : result v) : RegisterResult (finishRegister s rd (.ok v)) s rd result := by
  refine ⟨(s.setX rd v).advance, rfl, ?_, rfl, (frame_setX none s rd v).setPc _⟩
  rw [advance_x, setX_x_same]
  exact h

/-- A pc in range is below 4096, so it meets no bit of a U immediate (R91). -/
theorem pc_add_immU_parts {pc immU : Word} (inRange : pcInRange pc = true) (fits : fitsImmU immU = true) :
    (pc + immU).toNat % 4096 = pc.toNat ∧ (pc + immU).toNat / 4096 = immU.toNat / 4096 := by
  have low : pc.toNat < 1024 := pcInRange_toNat_lt inRange
  have masked : (immU &&& 0x00000FFF).toNat = 0 := congrArg BitVec.toNat (beq_iff_eq.mp fits)
  have multiple : immU.toNat % 2 ^ 12 = 0 := by
    rw [← Nat.and_two_pow_sub_one_eq_mod]; exact masked
  have below := immU.isLt
  rw [BitVec.toNat_add]
  omega

/-- Settles O24: both are register results; AUIPC's sum carries nothing. -/
theorem upperImmediateResults : Obligations.UpperImmediateResults := by
  intro s rd immU
  exact ⟨registerResult_finishRegister s rd rfl,
    registerResult_finishRegister s rd ⟨rfl, pc_add_immU_parts⟩⟩

/-! ## The Disassembler -/

theorem disassemble_ok {w : Word} {i : Instr} (hd : decode w = .ok i) (pc : Word) :
    disassemble (decodeFields w) pc = .instruction (mnemonicOf i) (operandsOf pc i) := by
  rw [disassemble, show select (decodeFields w) = .ok i from hd]

theorem disassemble_error {w : Word} {e : DecodeError} (hd : decode w = .error e) (pc : Word) :
    disassemble (decodeFields w) pc = .unsupported := by
  rw [disassemble, show select (decodeFields w) = .error e from hd]

/-- Settles O44: the Disassembler and the step ask the one decoder. -/
theorem disassemblerMirrorsTheEngine : Obligations.DisassemblerMirrorsTheEngine := by
  refine ⟨fun w pc m => ?_, fun s inRange => ?_⟩
  · cases hd : decode w with
    | ok i => simp [disassemble_ok hd]
    | error e => simp [disassemble_error hd]
  · cases hd : decode (fetch s) with
    | ok i => simp [disassemble_ok hd, stepOutcome_ne_unsupported inRange hd]
    | error e => simp [disassemble_error hd, stepOutcome_unsupported inRange hd]

end Sys2Proof.Machine
end

section
/-! PROOFS. The execution step: which instruction it executes and what outcome it reports (R80 to
R82, R181), and the results of JALR, the branches and the ALU instructions (R87 to R89, R96, R100 to
R106, R125 to R145). -/

namespace Sys2Proof.Machine

/-! ## What a step reports -/

theorem stepOutcome_halted {s : State} (h : Halted s) : stepOutcome s = .alreadyFinished := by
  rw [stepOutcome, if_neg ((halted_iff s).mp h)]

theorem stepOutcome_ok {s t : State} {i : Instr} (inRange : pcInRange s.pc = true)
    (hd : decode (fetch s) = .ok i) (he : exec i s = .next t) : stepOutcome s = .ok := by
  simp only [stepOutcome, inRange, hd, he, if_true]

theorem stepOutcome_invalidIndex {s : State} {i : Instr} {a : Int} (inRange : pcInRange s.pc = true)
    (hd : decode (fetch s) = .ok i) (he : exec i s = .fault (.invalidIndex a)) :
    stepOutcome s = .invalidIndex a := by
  simp only [stepOutcome, inRange, hd, he, if_true]

/-- An instruction completes or faults: no arm of `exec` is refused. -/
theorem exec_next_or_fault (i : Instr) (s : State) :
    (∃ t, exec i s = .next t) ∨ ∃ a, exec i s = .fault (.invalidIndex a) := by
  rcases exec_cases i s with ⟨_, _, -, -, -, e⟩ | ⟨_, _, -, -, -, e⟩ | ⟨_, -, -, -, e⟩ |
      ⟨_, _, -, -, -, -, e⟩ | ⟨a, -, -, e⟩
  case inr.inr.inr.inr => exact .inr ⟨a, e⟩
  all_goals exact .inl ⟨_, e⟩

/-- The four outcomes of R81, each with what the step did. -/
theorem stepOutcome_cases (s : State) :
    (Halted s ∧ step s = .next s ∧ stepOutcome s = .alreadyFinished) ∨
    (∃ e t, pcInRange s.pc = true ∧ decode (fetch s) = .error e ∧ step s = .next t ∧
      stepOutcome s = .unsupported (fetch s)) ∨
    (∃ i t, pcInRange s.pc = true ∧ decode (fetch s) = .ok i ∧ exec i s = .next t ∧
      step s = .next t ∧ stepOutcome s = .ok) ∨
    (∃ i a, pcInRange s.pc = true ∧ decode (fetch s) = .ok i ∧
      step s = .fault (.invalidIndex a) ∧ stepOutcome s = .invalidIndex a) := by
  rcases step_cases s with ⟨out, e⟩ | ⟨i, inRange, hd, e⟩ | ⟨er, inRange, hd, e⟩
  · exact .inl ⟨out, e, stepOutcome_halted out⟩
  · rcases exec_next_or_fault i s with ⟨t, he⟩ | ⟨a, he⟩
    · exact .inr (.inr (.inl ⟨i, t, inRange, hd, he, e.trans he, stepOutcome_ok inRange hd he⟩))
    · exact .inr (.inr (.inr ⟨i, a, inRange, hd, e.trans he, stepOutcome_invalidIndex inRange hd he⟩))
  · exact .inr (.inl ⟨er, _, inRange, hd, e, stepOutcome_unsupported inRange hd⟩)

/-- Settles O21: none of the four outcomes is a refusal. -/
theorem stepNeverRefuses : Obligations.StepNeverRefuses := by
  intro s r
  rcases stepOutcome_cases s with ⟨-, e, eo⟩ | ⟨_, _, -, -, e, eo⟩ | ⟨_, _, -, -, -, e, eo⟩ |
      ⟨_, _, -, -, e, eo⟩ <;> rw [e, eo] <;> exact ⟨nofun, nofun⟩

/-- Settles O22: in each of the four cases one clause holds on both sides and the others on
neither. -/
theorem stepOutcomeAgreesWithStep : Obligations.StepOutcomeAgreesWithStep := by
  intro s
  rcases stepOutcome_cases s with ⟨out, e, eo⟩ | ⟨er, t, inRange, hd, e, eo⟩ |
      ⟨i, t, inRange, hd, he, e, eo⟩ | ⟨i, a, inRange, hd, e, eo⟩
  · have outside := (halted_iff s).mp out
    simp [eo, e, halted_iff, outside]
  · simp [eo, e, halted_iff, inRange, hd, eq_comm]
  · simp [eo, e, halted_iff, inRange, hd, he]
  · simp [eo, e, halted_iff, inRange, hd]

/-! ## Which instruction a step executes -/

/-- Settles O17: the word at the pc's index is the fetched one. -/
theorem stepExecutesTheDecodedInstruction : Obligations.StepExecutesTheDecodedInstruction := by
  intro s i low high hd
  rw [← fetch_eq] at hd
  exact step_ok ((pcInRange_iff s.pc).mpr ⟨low, high⟩) hd

/-- A state that steps to itself is where any number of steps ends. -/
theorem reaches_self {s : State} (h : step s = .next s) : ∀ k, Reaches k s s
  | 0 => core_run_zero s
  | k + 1 => (core_run_next k h).trans (reaches_self h k)

/-- Settles O18: a halted state steps to itself. -/
theorem haltedMachineNeverMoves : Obligations.HaltedMachineNeverMoves := by
  intro s out
  have halted : Halted s := (halted_iff s).mpr ((pcInRange_iff s.pc).not.mpr out)
  exact ⟨stepOutcome_halted halted, reaches_self (step_halted halted)⟩

/-! ### A placed word -/

section
variable (s : State) (nbits w : Nat)

theorem withFetchWord_pc_inside (inRange : pcInRange s.pc = true) :
    (s.withFetchWord nbits w).pc = s.pc := if_pos inRange

theorem withFetchWord_pc_outside (out : pcInRange s.pc = false) :
    (s.withFetchWord nbits w).pc = 0 := if_neg (by simp [out])

theorem pcInRange_withFetchWord : pcInRange (s.withFetchWord nbits w).pc = true := by
  cases h : pcInRange s.pc with
  | true => rw [withFetchWord_pc_inside s nbits w h, h]
  | false => rw [withFetchWord_pc_outside s nbits w h]; decide

/-- Placing a word changes the Instruction Store and the pc alone. -/
theorem withFetchWord_restore :
    { s.withFetchWord nbits w with imem := s.imem, pc := s.pc } = s := rfl

theorem fetch_withFetchWord (h : s.imem.wf Config.imemFill Config.imemWords = true) :
    fetch (s.withFetchWord nbits w) = tableWord nbits w :=
  (memory_read_write h _ _ _).trans (if_pos rfl)

end

theorem decode_tableWord {w : Nat} {i : Instr} (h : decodeTableWord 32 w = some i) :
    decode (tableWord 32 w) = .ok i := by
  rw [decodeTableWord, if_pos (by decide)] at h
  cases hd : decode (tableWord 32 w) <;> simp_all [Except.toOption]

/-- Settles O47: the placed word is what the next step fetches, with the pc in range. -/
theorem placedWordRunsNext : Obligations.PlacedWordRunsNext := by
  intro s w i hs hd
  refine ⟨step_ok (pcInRange_withFetchWord s 32 w) ?_, fun inRange => ?_, fun out => ?_⟩
  · rw [fetch_withFetchWord s 32 w hs, decode_tableWord hd]
  · have restored := withFetchWord_restore s 32 w
    rwa [← withFetchWord_pc_inside s 32 w inRange] at restored
  · exact ⟨withFetchWord_restore s 32 w, withFetchWord_pc_outside s 32 w out⟩

/-! ## JALR and the branches -/

/-- An instruction that links and jumps. -/
theorem jumpResult_finishJump (s : State) (rd : RegIdx) {pc : Word} {target : Word → Prop}
    (h : target pc) : JumpResult (finishJump s rd pc) s rd target :=
  ⟨_, rfl, setX_x_same s rd _, h, (frame_setX none s rd _).setPc pc⟩

/-- JALR's mask clears bit 0 and keeps the others (R96). -/
theorem jalrMask_bit (a : Word) {i : Nat} (hi : i < 32) :
    (a &&& 0xFFFFFFFE).getLsbD i = (a.getLsbD i && decide (1 ≤ i)) := by
  rw [show (0xFFFFFFFE : Word) = ~~~1#32 from rfl, BitVec.getLsbD_and, BitVec.getLsbD_not,
    BitVec.getLsbD_one]
  cases i <;> simp [hi]

/-- Settles O26: the target is the masked sum, taken from the state before the link is written. -/
theorem jalrLinksAndJumps : Obligations.JalrLinksAndJumps := by
  intro s rd rs1 immI
  refine jumpResult_finishJump s rd ?_
  rw [jalrTarget_eq]
  refine ⟨?_, fun i low hi => ?_⟩
  · rw [jalrMask_bit _ (by decide), decide_eq_false (by decide), Bool.and_false]
  · rw [jalrMask_bit _ hi, decide_eq_true low, Bool.and_true]

theorem branchResult_finishBranch (s : State) (immB : Word) {c : Bool} {cond : Prop}
    (h : c = true ↔ cond) : BranchResult (finishBranch s c immB) s immB cond := by
  refine ⟨_, finishBranch_eq s c immB, fun hc => ?_, fun hc => ?_, (frame_refl none none s).setPc _⟩
  · exact if_pos (h.mpr hc)
  · exact if_neg (h.not.mpr hc)

theorem lessSigned_iff (a b : Word) : lessSigned a b = true ↔ a.toInt < b.toInt := decide_eq_true_iff

theorem lessUnsigned_iff (a b : Word) : lessUnsigned a b = true ↔ a.toNat < b.toNat :=
  decide_eq_true_iff

/-- Settles O27: each branch ends in `finishBranch` with the test of its comparison. -/
theorem branchesGoByTheirComparison : Obligations.BranchesGoByTheirComparison := by
  intro s rs1 rs2 immB
  have branch {c : Bool} {cond : Prop} := branchResult_finishBranch s immB (c := c) (cond := cond)
  refine ⟨branch beq_iff_eq, branch bne_iff_ne, branch (lessSigned_iff _ _), branch ?_,
    branch (lessUnsigned_iff _ _), branch ?_⟩
  · rw [Bool.not_eq_true', ← Bool.not_eq_true, lessSigned_iff, not_lt]
  · rw [Bool.not_eq_true', ← Bool.not_eq_true, lessUnsigned_iff, not_lt]

/-! ## The ALU instructions -/

theorem flagWord_lessSigned (a b : Word) :
    flagWord (lessSigned a b) = if a.toInt < b.toInt then 1 else 0 := by
  simp only [flagWord, lessSigned_iff]

theorem flagWord_lessUnsigned (a b : Word) :
    flagWord (lessUnsigned a b) = if a.toNat < b.toNat then 1 else 0 := by
  simp only [flagWord, lessUnsigned_iff]

/-- Settles O31: each is a register result of its operation on `x[rs1]` and the immediate. -/
theorem aluImmediateResults : Obligations.AluImmediateResults := by
  intro s rd rs1 immI
  have result {v : Word} {p : Word → Prop} := registerResult_finishRegister s rd (v := v) (result := p)
  exact ⟨result (BitVec.toInt_add _ _), result (flagWord_lessSigned _ _),
    result (flagWord_lessUnsigned _ _), result fun _ _ => BitVec.getLsbD_xor,
    result fun _ _ => BitVec.getLsbD_or, result fun _ _ => BitVec.getLsbD_and⟩

/-- Settles O32: each is a register result of its operation on `x[rs1]` and `x[rs2]`. -/
theorem aluRegisterResults : Obligations.AluRegisterResults := by
  intro s rd rs1 rs2
  have result {v : Word} {p : Word → Prop} := registerResult_finishRegister s rd (v := v) (result := p)
  exact ⟨result (BitVec.toInt_add _ _), result (BitVec.toInt_sub),
    result (flagWord_lessSigned _ _), result (flagWord_lessUnsigned _ _),
    result fun _ _ => BitVec.getLsbD_xor, result fun _ _ => BitVec.getLsbD_or,
    result fun _ _ => BitVec.getLsbD_and⟩

/-! ### Shifts -/

/-- SHAMT_MASK takes the low five bits (R88). -/
theorem shiftAmount_eq (b : Word) : shiftAmount b = b.toNat % 32 :=
  (BitVec.toNat_and b Config.shamtMask).trans (Nat.and_two_pow_sub_one_eq_mod b.toNat 5)

section
variable (a : Word) (n : Nat) {i : Nat}

theorem shiftLeft_bit (hi : i < 32) :
    (a <<< n).getLsbD i = if n ≤ i then a.getLsbD (i - n) else false := by
  rw [BitVec.getLsbD_shiftLeft]
  by_cases h : n ≤ i <;> simp [h, hi]

theorem ushiftRight_bit :
    (a >>> n).getLsbD i = if i + n ≤ 31 then a.getLsbD (i + n) else false := by
  rw [BitVec.getLsbD_ushiftRight, Nat.add_comm]
  split
  · rfl
  · exact BitVec.getLsbD_of_ge a _ (by omega)

theorem sshiftRight_bit (hi : i < 32) :
    (a.sshiftRight n).getLsbD i = if i + n ≤ 31 then a.getLsbD (i + n) else a.getLsbD 31 := by
  have inside : ¬ 32 ≤ i := Nat.not_le.mpr hi
  rw [BitVec.getLsbD_sshiftRight, Nat.add_comm n i, decide_eq_false inside, Bool.not_false,
    Bool.true_and, BitVec.msb_eq_getLsbD_last]
  simp only [show i + n < 32 ↔ i + n ≤ 31 from Nat.lt_succ_iff]

end

/-- An arithmetic shift is the floor of a division (R143). -/
theorem sshiftRight_toInt_eq_div (a : Word) (n : Nat) :
    (a.sshiftRight n).toInt = a.toInt / 2 ^ n := by
  rw [BitVec.toInt_sshiftRight, Int.shiftRight_eq_div_pow]
  norm_cast

/-- Settles O33: the shift amount is `n`, and the results' bits are those of the three shifts. -/
theorem shiftResults : Obligations.ShiftResults := by
  intro s rd rs1 rs2 n hn
  rw [← shiftAmount_eq] at hn
  subst hn
  have result {v : Word} {p : Word → Prop} := registerResult_finishRegister s rd (v := v) (result := p)
  exact ⟨result fun _ => shiftLeft_bit _ _, result fun _ _ => ushiftRight_bit _ _,
    result ⟨fun _ => sshiftRight_bit _ _, sshiftRight_toInt_eq_div _ _⟩⟩

end Sys2Proof.Machine
end

section
/-! PROOFS. The result of JAL (R95). -/

namespace Sys2Proof.Machine

/-- Settles O25: JAL ends in `finishJump` at the sum, TRANSFER_POST_INCREMENT being 0 (D2). -/
theorem jalLinksAndJumps : Obligations.JalLinksAndJumps := by
  intro s rd immJ
  exact jumpResult_finishJump s rd (jalTarget_eq s immJ)

end Sys2Proof.Machine
end

section
/-! PROOFS. The loads (R110 to R115): the bits they deliver inside the Data Memory, and the fault of
loads and stores outside it (R120, R171). -/

namespace Sys2Proof.Machine

/-! ## The low bits of a slot, extended -/

/-- Above its k + 1 low bits a sign-extended field repeats bit k. -/
theorem sext_extractLsb'_bit (w : Word) (k : Nat) {i : Nat} (hi : i < 32) :
    (sext (w.extractLsb' 0 (k + 1))).getLsbD i = w.getLsbD (if i < k + 1 then i else k) := by
  rw [sext_bit _ hi]
  split
  next low => simp [low]
  next => simp [BitVec.msb_eq_getLsbD_last]

theorem zext_extractLsb'_toNat (w : Word) {k : Nat} (hk : k ≤ 32) :
    (zext (w.extractLsb' 0 k)).toNat = w.toNat % 2 ^ k := by
  rw [zext, BitVec.toNat_setWidth_of_le hk, extractLsb'_zero_toNat]

/-! ## Inside the Data Memory and outside it -/

/-- Settles O28: inside the bounds the read delivers the slot's low bits, so each load is a register
result of their extension. -/
theorem loadsDeliverTheirBits : Obligations.LoadsDeliverTheirBits := by
  intro s rd rs1 immI inside
  have result {v : Word} {p : Word → Prop} := registerResult_finishRegister s rd (v := v) (result := p)
  simp only [exec, execLb, execLh, execLw, execLbu, execLhu, readByte_inside inside,
    readHalf_inside inside, readWord_inside inside]
  exact ⟨result fun _ hi => sext_extractLsb'_bit _ 7 hi, result fun _ hi => sext_extractLsb'_bit _ 15 hi,
    result rfl, result (zext_extractLsb'_toNat _ (by decide)),
    result (zext_extractLsb'_toNat _ (by decide))⟩

/-- Settles O30: `exec_outside`, whose cases are the eight instructions that form an address. -/
theorem loadsAndStoresFaultOutside : Obligations.LoadsAndStoresFaultOutside :=
  fun _ _ _ => exec_outside

end Sys2Proof.Machine
end

section
/-! PROOFS. The stores inside the Data Memory (R120 to R123). -/

namespace Sys2Proof.Machine

/-- A store that writes the one slot `a` and goes on. -/
theorem storeResult_finishStore {s : State} (hs : s.dmem.wf Config.dmemReset Config.dmemWords = true)
    {a : Int} (inside : InDataMemory a) {v : Word} {result : Word → Prop}
    (h : result ((s.setSlot a.toNat v).slot a.toNat)) :
    StoreResult (finishStore (.ok (s.setSlot a.toNat v))) s a result := by
  have frame : Frame none (some a) s (s.setSlot a.toNat v) := by
    have written := frame_setSlot none hs a.toNat v
    rwa [Int.toNat_of_nonneg inside.1] at written
  exact ⟨_, rfl, h, rfl, frame.setPc _⟩

/-- Settles O29: inside the bounds each store ends in the write of its width, and the written slot's
bits are `setSlot_mergeLow_bit`. -/
theorem storesReplaceTheirBits : Obligations.StoresReplaceTheirBits := by
  intro s rs1 rs2 immS hs inside
  have result {v : Word} {p : Word → Prop} := storeResult_finishStore hs inside (v := v) (result := p)
  simp only [exec, execSb, execSh, execSw, writeByte_inside _ inside, writeHalf_inside _ inside,
    writeWord_inside _ inside]
  exact ⟨result fun _ hi => setSlot_mergeLow_bit hs _ 8 _ hi,
    result fun _ hi => setSlot_mergeLow_bit hs _ 16 _ hi, result (setSlot_slot_same hs _ _)⟩

end Sys2Proof.Machine
end

section
/-! PROOFS. The targets that the Disassembler prints for JAL and the branches (R155, R157), read off
the results of JAL and of the six branches. -/

namespace Sys2Proof.Machine

theorem JumpResult.pc_of_next {o : Outcome} {s t : State} {rd : RegIdx} {target : Word → Prop}
    (result : JumpResult o s rd target) (next : o = .next t) : target t.pc := by
  obtain ⟨t', next', -, pc, -⟩ := result
  obtain rfl : t' = t := Host.Outcome.next.inj (next'.symm.trans next)
  exact pc

/-- A branch that does not go on at pc + 1 was taken. -/
theorem BranchResult.pc_of_taken {o : Outcome} {s t : State} {immB : Word} {cond : Prop}
    (result : BranchResult o s immB cond) (next : o = .next t) (taken : t.pc ≠ s.pc + 1) :
    t.pc = s.pc + immB := by
  obtain ⟨t', next', ifTaken, ifNot, -⟩ := result
  obtain rfl : t' = t := Host.Outcome.next.inj (next'.symm.trans next)
  exact ifTaken (not_imp_comm.mp ifNot taken)

/-- Settles O45: the printed target is `relativeTarget`, the sum to which JAL and a taken branch go,
TRANSFER_POST_INCREMENT being 0 (D2). -/
theorem disassembledTargetIsTheNextPc : Obligations.DisassembledTargetIsTheNextPc := by
  refine ⟨fun s t rd immJ next => ?_, fun s t rs1 rs2 immB i hi next taken => ?_⟩
  · have pc : t.pc = s.pc + immJ := (jalLinksAndJumps s rd immJ).pc_of_next next
    rw [operandsOf, relativeTarget_eq, pc]
  · have printed {cond : Prop} (result : BranchResult (exec i s) s immB cond) :
        relativeTarget s.pc immB = t.pc :=
      (relativeTarget_eq s.pc immB).trans (result.pc_of_taken next taken).symm
    obtain ⟨beq, bne, blt, bge, bltu, bgeu⟩ := branchesGoByTheirComparison s rs1 rs2 immB
    simp only [List.mem_cons, List.not_mem_nil, or_false] at hi
    rcases hi with rfl | rfl | rfl | rfl | rfl | rfl
    · rw [operandsOf, printed beq]
    · rw [operandsOf, printed bne]
    · rw [operandsOf, printed blt]
    · rw [operandsOf, printed bge]
    · rw [operandsOf, printed bltu]
    · rw [operandsOf, printed bgeu]

end Sys2Proof.Machine
end

section
/-! PROOFS. The Session Controller: the loops of `run`, `step` and `continue` as equations (R182 to
R184), aborted commands (R171, R185), a Halted session (R181), and the inspection commands (R187,
R190, R191). -/

namespace Sys2Proof.Machine

/-! ## A step in a state with another Run State -/

theorem step_setRunState_next {s t : State} (r : RunState) (h : step s = .next t) :
    step (s.setRunState r) = .next (t.setRunState r) := by
  rw [step_setRunState, h, mapNext]

theorem step_setRunState_fault {s : State} {f : Fault} (r : RunState) (h : step s = .fault f) :
    step (s.setRunState r) = .fault f := by
  rw [step_setRunState, h, mapNext]

/-! ## The passes as equations -/

section
variable {s : State}

theorem runTurn_halted (out : Halted s) : runTurn s = .ended (s.setRunState .halted) .completion :=
  if_pos ((halted_iff_test s).mp out)

theorem runTurn_breakpoint (inside : ¬ Halted s) (hit : s.pc ∈ s.breakpoints) :
    runTurn s = .ended (s.setRunState .stoppedAtBreakpoint) (.breakpointHit s.pc) := by
  rw [runTurn, if_neg ((halted_iff_test s).not.mp inside), if_pos (List.contains_iff_mem.mpr hit),
    endAtBreakpoint]

theorem runTurn_step (inside : ¬ Halted s) (miss : s.pc ∉ s.breakpoints) :
    runTurn s = turnStep s .again := by
  rw [runTurn, if_neg ((halted_iff_test s).not.mp inside),
    if_neg (List.contains_iff_mem.not.mpr miss)]

theorem stepTurn_halted (out : Halted s) :
    stepTurn s = .ended (s.setRunState .halted) .alreadyFinished :=
  if_pos ((halted_iff_test s).mp out)

theorem stepTurn_step (inside : ¬ Halted s) :
    stepTurn s = turnStep (s.setRunState .running) stepCheck :=
  if_neg ((halted_iff_test s).not.mp inside)

/-- After its instruction the step command is over, whatever the Breakpoint Set is (R183). -/
theorem stepCheck_eq (s : State) :
    stepCheck s = .ended (s.setRunState (if pcInRange s.pc then .idle else .halted)) .stepped := by
  cases h : pcInRange s.pc <;> simp [stepCheck, endHalted, h]

theorem continueTurn_halted (out : Halted s) :
    continueTurn s = .ended (s.setRunState .halted) .completion :=
  if_pos ((halted_iff_test s).mp out)

theorem continueTurn_step (inside : ¬ Halted s) : continueTurn s = turnStep s continueCheck :=
  if_neg ((halted_iff_test s).not.mp inside)

theorem continueCheck_halted (out : Halted s) :
    continueCheck s = .ended (s.setRunState .halted) .completion :=
  if_pos ((halted_iff_test s).mp out)

/-- The breakpoints at which `continue` stops, 1023 being the last index (R184, D15). -/
theorem continue_stops_iff (s : State) :
    (s.breakpoints.contains s.pc && s.pc != lastIndex) = true ↔
      s.pc ∈ s.breakpoints ∧ s.pc ≠ 1023 := by
  have last : lastIndex = 1023 := rfl
  simp [last]

theorem continueCheck_breakpoint (inside : ¬ Halted s) (hit : s.pc ∈ s.breakpoints)
    (notLast : s.pc ≠ 1023) :
    continueCheck s = .ended (s.setRunState .stoppedAtBreakpoint) (.breakpointHit s.pc) := by
  rw [continueCheck, if_neg ((halted_iff_test s).not.mp inside),
    if_pos ((continue_stops_iff s).mpr ⟨hit, notLast⟩), endAtBreakpoint]

theorem continueCheck_again (inside : ¬ Halted s) (miss : s.pc ∉ s.breakpoints ∨ s.pc = 1023) :
    continueCheck s = .again s := by
  have goesOn : ¬ (s.pc ∈ s.breakpoints ∧ s.pc ≠ 1023) := by tauto
  rw [continueCheck, if_neg ((halted_iff_test s).not.mp inside),
    if_neg ((continue_stops_iff s).not.mpr goesOn)]

end

/-! ## The three commands -/

/-- Settles O34: the first pass of the loop, which begins with the Run State Running. -/
theorem runStopsBeforeABreakpoint : Obligations.RunStopsBeforeABreakpoint := by
  refine fun fuel s => ⟨fun out => ?_, fun inside hit => ?_, fun inside miss =>
    ⟨fun t next => ?_, fun a fault => ?_⟩⟩
  · exact loop_ended fuel (runTurn_halted (s := s.setRunState .running) out)
  · exact loop_ended fuel (runTurn_breakpoint (s := s.setRunState .running) inside hit)
  · have turn := runTurn_step (s := s.setRunState .running) inside miss
    exact loop_again fuel (turn.trans (turnStep_next _ (step_setRunState_next .running next)))
  · have turn := runTurn_step (s := s.setRunState .running) inside miss
    exact loop_ended fuel (turn.trans (turnStep_fault _ (step_setRunState_fault .running fault)))

/-- Settles O35: the only pass of the loop. -/
theorem stepCommandIgnoresBreakpoints : Obligations.StepCommandIgnoresBreakpoints := by
  refine fun fuel s => ⟨fun out => ?_, fun inside => ⟨fun t next => ?_, fun a fault => ?_⟩⟩
  · exact loop_ended fuel (stepTurn_halted out)
  · have turn := turnStep_next stepCheck (step_setRunState_next .running next)
    exact loop_ended fuel ((stepTurn_step inside).trans (turn.trans (stepCheck_eq _)))
  · have turn := turnStep_fault stepCheck (step_setRunState_fault .running fault)
    exact loop_ended fuel ((stepTurn_step inside).trans turn)

/-- Settles O36: the first pass of the loop, which after a next state is what `continueCheck` makes
of it. -/
theorem continueChecksAfterTheInstruction : Obligations.ContinueChecksAfterTheInstruction := by
  refine fun fuel s => ⟨fun out => ?_, fun inside => ⟨fun t next => ?_, fun a fault => ?_⟩⟩
  · exact loop_ended fuel (continueTurn_halted (s := s.setRunState .running) out)
  · have turn : continueTurn (s.setRunState .running) = continueCheck (t.setRunState .running) :=
      (continueTurn_step (s := s.setRunState .running) inside).trans
        (turnStep_next continueCheck (step_setRunState_next .running next))
    refine ⟨fun out => ?_, fun inside hit notLast => ?_, fun inside miss => ?_⟩
    · exact loop_ended fuel (turn.trans (continueCheck_halted (s := t.setRunState .running) out))
    · exact loop_ended fuel (turn.trans
        (continueCheck_breakpoint (s := t.setRunState .running) inside hit notLast))
    · exact loop_again fuel (turn.trans
        (continueCheck_again (s := t.setRunState .running) inside miss))
  · have turn := turnStep_fault continueCheck (step_setRunState_fault .running fault)
    exact loop_ended fuel ((continueTurn_step (s := s.setRunState .running) inside).trans turn)

/-- Settles O37: a loop returns the same with more fuel, and the other commands read no fuel. -/
theorem moreFuelKeepsTheResult : Obligations.MoreFuelKeepsTheResult := by
  intro m n c s t r hle h
  cases c with
  | run | stepOne | resume => exact loop_more hle h
  | setBreakpoint | readPc | readInsn | readReg | readSlot | exit | malformed | other => exact h

/-! ## Aborted commands -/

/-- The state in which Invalid-Index of `a` leaves a command (R171, R185). -/
structure Aborted (t : State) (a : Int) : Prop where
  idle : t.runState = .idle
  inside : ¬ Halted t
  faults : step t = .fault (.invalidIndex a)

/-- An aborted command has nothing to set in the Run State. -/
theorem Aborted.setRunState_idle {t : State} {a : Int} (h : Aborted t a) :
    t.setRunState .idle = t := by
  rw [← h.idle]; rfl

/-- A loop that returns does so by a last pass. -/
theorem loop_returned {turn : State → Turn} {fuel : Nat} {s t : State} {r : Reply}
    (h : loop turn fuel s = .returned t r) : ∃ u, turn u = .ended t r :=
  loop_induction (fun _ => True) (fun t r => ∃ u, turn u = .ended t r) (fun _ _ _ _ => trivial)
    (fun u _ _ _ e => ⟨u, e⟩) fuel s t r trivial h

section
variable {u t : State} {a : Int}

/-- Where the check after the step reports no Invalid-Index, the step itself faulted. -/
theorem turnStep_aborted {andThen : State → Turn} (inside : ¬ Halted u)
    (check : ∀ v, andThen v ≠ .ended t (.invalidIndex a))
    (h : turnStep u andThen = .ended t (.invalidIndex a)) :
    t = u.setRunState .idle ∧ Aborted t a := by
  unfold turnStep at h
  split at h
  · exact absurd h (check _)
  · cases h
    exact ⟨rfl, rfl, inside, step_setRunState_fault .idle ‹_›⟩
  · cases h

theorem runTurn_aborted (h : runTurn u = .ended t (.invalidIndex a)) :
    Aborted t a ∧ t.pc ∉ t.breakpoints := by
  by_cases halted : Halted u
  · rw [runTurn_halted halted] at h; cases h
  by_cases hit : u.pc ∈ u.breakpoints
  · rw [runTurn_breakpoint halted hit] at h; cases h
  · rw [runTurn_step halted hit] at h
    obtain ⟨rfl, aborted⟩ := turnStep_aborted (andThen := .again) halted (fun _ => nofun) h
    exact ⟨aborted, hit⟩

theorem stepCheck_ne_invalidIndex (v : State) : stepCheck v ≠ .ended t (.invalidIndex a) := by
  rw [stepCheck_eq]
  exact nofun

theorem stepTurn_aborted (h : stepTurn u = .ended t (.invalidIndex a)) : Aborted t a := by
  by_cases halted : Halted u
  · rw [stepTurn_halted halted] at h; cases h
  · rw [stepTurn_step halted] at h
    exact (turnStep_aborted (u := u.setRunState .running) halted stepCheck_ne_invalidIndex h).2

theorem continueCheck_ne_invalidIndex (v : State) :
    continueCheck v ≠ .ended t (.invalidIndex a) := by
  unfold continueCheck
  split_ifs <;> exact nofun

theorem continueTurn_aborted (h : continueTurn u = .ended t (.invalidIndex a)) : Aborted t a := by
  by_cases halted : Halted u
  · rw [continueTurn_halted halted] at h; cases h
  · rw [continueTurn_step halted] at h
    exact (turnStep_aborted halted continueCheck_ne_invalidIndex h).2

/-- What O38 asks of an aborted command follows once the command, re-issued, faults at once. -/
theorem Aborted.reissued {c : Command} (h : Aborted t a)
    (again : ∀ fuel, command (fuel + 1) c t = .returned (t.setRunState .idle) (.invalidIndex a)) :
    t.runState = .idle ∧ ¬ Halted t ∧ step t = .fault (.invalidIndex a) ∧
      ∀ fuel, command (fuel + 1) c t = .returned t (.invalidIndex a) :=
  ⟨h.idle, h.inside, h.faults, fun fuel => by rw [again, h.setRunState_idle]⟩

end

/-- Settles O38: the last pass of each loop leaves an `Aborted` state, and from there the first pass
of the same loop faults. -/
theorem abortedCommandFaultsAgain : Obligations.AbortedCommandFaultsAgain := by
  intro fuel c s t a hc h
  simp only [List.mem_cons, List.not_mem_nil, or_false] at hc
  rcases hc with rfl | rfl | rfl <;> obtain ⟨u, turn⟩ := loop_returned h
  · obtain ⟨aborted, miss⟩ := runTurn_aborted turn
    refine aborted.reissued fun fuel => ?_
    obtain ⟨-, -, steps⟩ := runStopsBeforeABreakpoint fuel t
    exact (steps aborted.inside miss).2 a aborted.faults
  · have aborted := stepTurn_aborted turn
    refine aborted.reissued fun fuel => ?_
    obtain ⟨-, steps⟩ := stepCommandIgnoresBreakpoints fuel t
    exact (steps aborted.inside).2 a aborted.faults
  · have aborted := continueTurn_aborted turn
    refine aborted.reissued fun fuel => ?_
    obtain ⟨-, steps⟩ := continueChecksAfterTheInstruction fuel t
    exact (steps aborted.inside).2 a aborted.faults

/-! ## A Halted session -/

/-- What the engine works on stays as it is once the pc is out of range: a step is the identity. -/
theorem sessionRule_halted {s : State} (out : Halted s) :
    SessionRule (SameEngineState s) (SameEngineState s) where
  setRunState _ same := ⟨same.regs, same.pc, same.dmem, same.imem⟩
  returns _ same _ := ⟨same.regs, same.pc, same.dmem, same.imem⟩
  step {u t} same next := by
    have halted : Halted u := by rwa [Halted, ← same.pc]
    obtain rfl : u = t := Host.Outcome.next.inj ((step_halted halted).symm.trans next)
    exact same

/-- Settles O39: no command changes what the engine works on. -/
theorem haltedSessionKeepsProgramState : Obligations.HaltedSessionKeepsProgramState := by
  intro fuel c s t r out h
  rcases command_returned (sessionRule_halted out) ⟨rfl, rfl, rfl, rfl⟩ h with
      same | rfl | ⟨p, -, -, rfl⟩
  · exact ⟨same.regs.symm, same.dmem.symm, same.imem.symm, same.pc.symm⟩
  · exact ⟨rfl, rfl, rfl, rfl⟩
  · exact ⟨rfl, rfl, rfl, rfl⟩

/-! ## Inspection -/

/-- Settles O41: an inspection reports what its accessor answers, in the state as it is. -/
theorem inspectionCommandsArePure : Obligations.InspectionCommandsArePure := by
  refine fun fuel s => ⟨rfl, fun i => ?_, fun n outside => ?_, fun a inside => ?_,
    fun a outside => ?_, rfl⟩
  · rw [command, regRead_regIdx, inspect]
  · rw [command, regRead_outside s outside, inspect]
  · rw [command, readWord_inside inside, inspect]
  · rw [command, readWord_outside outside, inspect]

end Sys2Proof.Machine
end

section
/-! PROOFS. The load (R201 to R203): what the Instruction Store reads once the program is stored. -/

namespace Sys2Proof.Machine

/-- A read after words were stored from index `i` on: below `i` and past the last of them the store
reads as before, between them it reads the word put there. -/
theorem storeProgram_read (n : Nat) : ∀ (ws : List Word) (m : Memory) (i : Nat),
    m.wf Config.imemFill Config.imemWords = true → i + ws.length ≤ Config.imemWords →
      (storeProgram m i ws).read Config.imemFill n =
        if n < i then m.read Config.imemFill n else ws.getD (n - i) (m.read Config.imemFill n)
  | [], _, _, _, _ => (ite_self _).symm
  | w :: ws, m, i, wf, fits => by
    rw [List.length_cons] at fits
    have inside : i < Config.imemWords := by omega
    have rest := storeProgram_read n ws _ (i + 1) (memory_write_wf w wf inside) (by omega)
    rw [storeProgram, rest, memory_read_write wf]
    rcases Nat.lt_trichotomy n i with below | rfl | above
    · rw [if_pos (by omega), if_neg (by omega), if_pos below]
    · rw [if_pos (by omega), if_pos rfl, if_neg (by omega), Nat.sub_self, List.getD_cons_zero]
    · rw [if_neg (by omega), if_neg (by omega), if_neg (by omega),
        show n - i = n - (i + 1) + 1 by omega, List.getD_cons_succ]

theorem loadProgram_of_le (s : State) {program : List Word}
    (fits : program.length ≤ Config.imemWords) :
    loadProgram s program = some { s with imem := storeProgram s.imem 0 program } :=
  if_pos fits

theorem loadProgram_of_lt (s : State) {program : List Word}
    (tooLong : Config.imemWords < program.length) : loadProgram s program = none :=
  if_neg (Nat.not_le.mpr tooLong)

/-- Settles O46: the store starts out empty, so it reads 0 wherever no word of the program is put. -/
theorem loadedProgramIsInTheStore : Obligations.LoadedProgramIsInTheStore := by
  refine fun program => ⟨fun fits => ?_, loadProgram_of_lt State.reset⟩
  have emptyWf := memory_wf_nil (d := Config.imemFill) Config.imemWords
  have loaded := loadProgram_of_le State.reset fits
  exact ⟨_, loaded, fun n => storeProgram_read n program [] 0 emptyWf (by rwa [Nat.zero_add]),
    loadProgram_imem_wf emptyWf loaded, rfl⟩

end Sys2Proof.Machine
end
